-- ==== Sys2Proof/Word.lean ====
section
/-! DEFINITION. The words of the CORE and their plainest arithmetic (00_scope.md rule R3 and section 5). -/

namespace Sys2Proof

/-- A data word: W = 32 bits, two's complement, the width of a register, a latch and the pc (R3; the spec's decision D6, log 2). -/
abbrev Word := BitVec 32

/-- An instruction word: `INSN_BITS` = 16 bits (R3, R70). -/
abbrev InsnWord := BitVec 16

/-- A byte of the serialized image (R42); data memory has no bytes. -/
abbrev Byte := BitVec 8

/-- `uint(v)`: a word read as an unsigned number (00_scope.md section 5). -/
abbrev uint (v : Word) : Nat := v.toNat

/-- `sint(v)`: a word read as a two's-complement number (00_scope.md section 5). -/
abbrev sint (v : Word) : Int := v.toInt

/-- `wrap(n)`: the word whose `uint` is `n mod 2^W` (00_scope.md section 5). -/
abbrev wrap (n : Int) : Word := BitVec.ofInt 32 n

/-- `zext_W(n)`: an unsigned field widened to a word with zeros (00_scope.md section 5, R79). -/
abbrev zextW (n : Nat) : Word := BitVec.ofNat 32 n

/-- Whether an integer fits a W-bit signed word (R214): -2^(W-1) .. 2^(W-1)-1. -/
abbrev fitsWord (n : Int) : Bool := decide (-(2 ^ 31) ≤ n) && decide (n < 2 ^ 31)

end Sys2Proof
end

