-- ==== Sys2Proof/Config.lean ====
section
/-! DEFINITION. The parameters of the CORE (00_scope.md rule R3): the fixed sizes and the open named parameters. -/

namespace Sys2Proof

/-- `IMM_BITS`: the immediate/address field has 10 bits, values 0..1023 (R3, R79). -/
abbrev immLimit : Nat := 1024

/-- `IMEM_WORDS`: the capacity of instruction memory in 16-bit words (R3; the spec's decision D8). -/
abbrev imemWords : Nat := 1024

/-- What one CORE and its driver fix and the spec leaves open (R3).
`memSize` is MEM_SIZE (D7); `iterBudget` is ITER_BUDGET (D27), `none` where the driver sets no bound (log 3).
No step changes it. -/
structure Config where
  memSize    : Nat
  iterBudget : Option Nat
  deriving DecidableEq, Repr

/-- The admitted sizes: 1 <= MEM_SIZE < 2^(W-1) (R3). -/
abbrev Config.wf (c : Config) : Prop := 1 ≤ c.memSize ∧ c.memSize < 2 ^ 31

/-- MEM_SIZE at its default 1024 (R3, D7) and no iteration budget (DESIGN CHOICE, log 3). -/
def Config.default : Config where
  memSize    := 1024
  iterBudget := none

end Sys2Proof
end

