-- ==== Sys2Proof/Syntax.lean ====
section
/-! DEFINITION. The instructions: one constructor per row of spec/opcode_table.json (30_encoding.md rules R77, R80). -/

namespace Sys2Proof

/-- A general register: the entire register file is R1 and R2 (R10). -/
inductive Reg where
  | r1
  | r2
  deriving DecidableEq, Repr

/-- The 19 instruction forms (R77, opcode_table.json).
An immediate, address or target is the number the assembler and encoder see; `Instr.wellFormed` bounds it (R83). -/
inductive Instr where
  /-- `ADD Rd,Rs`, register form (R118). -/
  | addReg (dest operand : Reg)
  /-- `ADD Rd,n`, immediate form (R119). -/
  | addImm (dest : Reg) (imm : Nat)
  /-- `SUB Rd,Rs`, register form (R120). -/
  | subReg (dest operand : Reg)
  /-- `SUB Rd,n`, immediate form (R121). -/
  | subImm (dest : Reg) (imm : Nat)
  /-- `MUL Rd,Rs`, register form (R122). -/
  | mulReg (dest operand : Reg)
  /-- `MUL Rd,n`, immediate form (R123). -/
  | mulImm (dest : Reg) (imm : Nat)
  /-- `DIV Rd,Rs`, register form (R124). -/
  | divReg (dest operand : Reg)
  /-- `DIV Rd,n`, immediate form (R125). -/
  | divImm (dest : Reg) (imm : Nat)
  /-- `JMP t` (R145). -/
  | jmp (target : Nat)
  /-- `JE Rt,t` (R146). -/
  | je (tested : Reg) (target : Nat)
  /-- `CALL t` (R147). -/
  | call (target : Nat)
  /-- `RET` (R148). -/
  | ret
  /-- `LD Rd,Ra`, register-indirect form (R131). -/
  | ldReg (reg addr : Reg)
  /-- `LD Rd,n`, absolute form (R130). -/
  | ldImm (reg : Reg) (imm : Nat)
  /-- `ST Rs,Ra`, register-indirect form (R133). -/
  | stReg (reg addr : Reg)
  /-- `ST Rs,n`, absolute form (R132). -/
  | stImm (reg : Reg) (imm : Nat)
  /-- `OUT Rs` (R140). -/
  | out (src : Reg)
  /-- `RST`, interrupt return (R160). -/
  | rst
  /-- `HLT`, halt (R161). -/
  | hlt
  deriving DecidableEq, Repr

end Sys2Proof
end

