-- ==== Sys2Proof/WellFormed.lean ====
section
/-! DEFINITION. Which instructions are representable: every immediate, address and target is in 0..1023 (R79, R83, R84). -/

namespace Sys2Proof

/-- The immediate, address or target of an instruction, where its form has one (R72 to R76). -/
def Instr.immediate : Instr → Option Nat
  | .addReg _ _ => none
  | .addImm _ n => some n
  | .subReg _ _ => none
  | .subImm _ n => some n
  | .mulReg _ _ => none
  | .mulImm _ n => some n
  | .divReg _ _ => none
  | .divImm _ n => some n
  | .jmp t => some t
  | .je _ t => some t
  | .call t => some t
  | .ret => none
  | .ldReg _ _ => none
  | .ldImm _ n => some n
  | .stReg _ _ => none
  | .stImm _ n => some n
  | .out _ => none
  | .rst => none
  | .hlt => none

/-- "every immediate/address fits 10 bits" (R25, R79): what R84 calls a representable instruction. -/
def Instr.wellFormed (i : Instr) : Bool :=
  match i.immediate with
  | none => true
  | some n => decide (n < immLimit)

end Sys2Proof
end

