-- ==== Sys2Proof/Decode.lean ====
section
/-! DEFINITION. The instruction codec (30_encoding.md): fields, decoder, encoder, byte layout and the opcode table. -/

namespace Sys2Proof

/-- The codec's errors (R81, R83, R87, R174): all of them "abort loading". -/
inductive EncodingError where
  /-- The opcode nibble is not one of the 13 defined values (R81). -/
  | unknownOpcode (w : InsnWord)
  /-- Fewer than 2 bytes remain when decoding (R87). -/
  | truncatedStream
  /-- An operand outside 0..1023 at encode (R83), or an image longer than instruction memory (D31). -/
  | operandOutOfRange
  deriving DecidableEq, Repr

/-! ### Fields (R71, R72 to R76) -/

/-- `w[15:12]`, the opcode nibble (R71). -/
def opField (w : InsnWord) : BitVec 4 := w.extractLsb' 12 4

/-- `w[11]`: the discriminator `m` of Format A, the register selector of Formats T and O (R71). -/
def bit11 (w : InsnWord) : Bool := w.getLsbD 11

/-- `w[10]`: the register selector `r` of Format A (R72). -/
def bit10 (w : InsnWord) : Bool := w.getLsbD 10

/-- `w[0]`: the second register selector `s` of Format A's register form (R72, the spec's decision D4). -/
def bit0 (w : InsnWord) : Bool := w.getLsbD 0

/-- `imm10 = w[9:0]`, an unsigned number (R79). -/
def immField (w : InsnWord) : Nat := (w.extractLsb' 0 10).toNat

/-- `reg(b) = R1 if b = 0, R2 if b = 1` (R78, the spec's decision D2, log 11). -/
def regOfBit (b : Bool) : Reg := if b then .r2 else .r1

/-! ### Decode (R80) -/

/-- Format A: bit 11 chooses between the register form and the immediate form (R72). -/
def decodeFormA (regForm : Reg → Reg → Instr) (immForm : Reg → Nat → Instr) (w : InsnWord) : Instr :=
  if bit11 w then regForm (regOfBit (bit10 w)) (regOfBit (bit0 w))
  else immForm (regOfBit (bit10 w)) (immField w)

/-- `Decode(w)` (R80), total: any 16-bit word is an instruction or `UnknownOpcode`; only the bits its format names are read. -/
def decode (w : InsnWord) : Except EncodingError Instr :=
  match (opField w).toNat with
  | 0 => .ok (decodeFormA .addReg .addImm w)
  | 1 => .ok (decodeFormA .subReg .subImm w)
  | 2 => .ok (decodeFormA .mulReg .mulImm w)
  | 3 => .ok (decodeFormA .divReg .divImm w)
  | 4 => .ok (.jmp (immField w))
  | 5 => .ok (.je (regOfBit (bit11 w)) (immField w))
  | 6 => .ok (.call (immField w))
  | 7 => .ok .ret
  | 8 => .ok (decodeFormA .ldReg .ldImm w)
  | 9 => .ok (decodeFormA .stReg .stImm w)
  | 10 => .ok (.out (regOfBit (bit11 w)))
  | 11 => .ok .rst
  | 12 => .ok .hlt
  | _ => .error (.unknownOpcode w)

/-! ### Bytes (R42, R70) -/

/-- Two bytes as one big-endian word: the first byte is bits 15..8 (R42, R70). -/
def wordOfBytes (hi lo : Byte) : InsnWord := hi ++ lo

/-- A word as its two bytes, big-endian (R42, R70). -/
def bytesOfWord (w : InsnWord) : List Byte := [w.extractLsb' 8 8, w.extractLsb' 0 8]

/-- The first instruction of a byte stream and the bytes after it: "fails with TruncatedStream if fewer than 2 bytes remain" (R87). -/
def decodeBytes : List Byte → Except EncodingError (Instr × List Byte)
  | hi :: lo :: rest => (decode (wordOfBytes hi lo)).map fun i => (i, rest)
  | _ => .error .truncatedStream

/-- What the decoder reads from an instruction whose bits are `w`, bit 0 the least significant bit of its one 16-bit word;
bits at or above `nbits` are 0. -/
def decodeTableWord (nbits w : Nat) : Option Instr :=
  match decodeBytes (bytesOfWord (BitVec.ofNat 16 (w % 2 ^ nbits))) with
  | .ok (i, _) => some i
  | .error _ => none

/-! ### Encode (R83) -/

/-- `sel(R1) = 0`, `sel(R2) = 1` (R83). -/
def selOf : Reg → BitVec 1
  | .r1 => 0#1
  | .r2 => 1#1

/-- Format A, immediate form: `op ++ 0 ++ sel(d) ++ n[9:0]` (R72, R83). -/
def encodeAImm (op : BitVec 4) (d : Reg) (n : Nat) : InsnWord :=
  op ++ 0#1 ++ selOf d ++ BitVec.ofNat 10 n

/-- Format A, register form: `op ++ 1 ++ sel(d) ++ 000000000 ++ sel(q)` (R72, R83). -/
def encodeAReg (op : BitVec 4) (d q : Reg) : InsnWord :=
  op ++ 1#1 ++ selOf d ++ 0#9 ++ selOf q

/-- Format J: `op ++ 00 ++ t[9:0]` (R75, R83). -/
def encodeJ (op : BitVec 4) (t : Nat) : InsnWord := op ++ 0#2 ++ BitVec.ofNat 10 t

/-- Format T: `op ++ sel(q) ++ 0 ++ t[9:0]` (R73, R83). -/
def encodeT (op : BitVec 4) (q : Reg) (t : Nat) : InsnWord := op ++ selOf q ++ 0#1 ++ BitVec.ofNat 10 t

/-- Format O: `op ++ sel(q) ++ 00000000000` (R74, R83). -/
def encodeO (op : BitVec 4) (q : Reg) : InsnWord := op ++ selOf q ++ 0#11

/-- Format Z: `op ++ 000000000000` (R76, R83). -/
def encodeZ (op : BitVec 4) : InsnWord := op ++ 0#12

/-- The word of an instruction (R83), its immediate "masked to 0x3FF" and every ignored bit 0; `num(op)` is R77's number. -/
def encode : Instr → InsnWord
  | .addReg d q => encodeAReg 0#4 d q
  | .addImm d n => encodeAImm 0#4 d n
  | .subReg d q => encodeAReg 1#4 d q
  | .subImm d n => encodeAImm 1#4 d n
  | .mulReg d q => encodeAReg 2#4 d q
  | .mulImm d n => encodeAImm 2#4 d n
  | .divReg d q => encodeAReg 3#4 d q
  | .divImm d n => encodeAImm 3#4 d n
  | .jmp t => encodeJ 4#4 t
  | .je q t => encodeT 5#4 q t
  | .call t => encodeJ 6#4 t
  | .ret => encodeZ 7#4
  | .ldReg d a => encodeAReg 8#4 d a
  | .ldImm d n => encodeAImm 8#4 d n
  | .stReg d a => encodeAReg 9#4 d a
  | .stImm d n => encodeAImm 9#4 d n
  | .out q => encodeO 10#4 q
  | .rst => encodeZ 11#4
  | .hlt => encodeZ 12#4

/-- `encode` as the codec offers it: "total function, never fails for well-formed in-range operands", and
`OperandOutOfRange` otherwise (R83, 90_conflicts.md C7). -/
def encodeChecked (i : Instr) : Except EncodingError InsnWord :=
  if i.wellFormed then .ok (encode i) else .error .operandOutOfRange

/-- `encode(instruction) -> 2 bytes` (R83). -/
def encodeBytes (i : Instr) : Except EncodingError (List Byte) :=
  (encodeChecked i).map bytesOfWord

/-! ### The opcode table (opcode_table.json, R77) -/

/-- One row of the table: a word is of the row when its masked bits are the row's pattern.
`used` covers the bits that are not ignored (the table's `x` bits are 0 in it, R82). -/
structure TableRow where
  pattern : InsnWord
  mask    : InsnWord
  used    : InsnWord
  deriving DecidableEq, Repr

/-- The row of an instruction: the table's `match` and `mask`, and the bits its `encoding` string does not mark `x`. -/
def Instr.row : Instr → TableRow
  | .addReg _ _ => ⟨0x0800#16, 0xF800#16, 0xFC01#16⟩
  | .addImm _ _ => ⟨0x0000#16, 0xF800#16, 0xFFFF#16⟩
  | .subReg _ _ => ⟨0x1800#16, 0xF800#16, 0xFC01#16⟩
  | .subImm _ _ => ⟨0x1000#16, 0xF800#16, 0xFFFF#16⟩
  | .mulReg _ _ => ⟨0x2800#16, 0xF800#16, 0xFC01#16⟩
  | .mulImm _ _ => ⟨0x2000#16, 0xF800#16, 0xFFFF#16⟩
  | .divReg _ _ => ⟨0x3800#16, 0xF800#16, 0xFC01#16⟩
  | .divImm _ _ => ⟨0x3000#16, 0xF800#16, 0xFFFF#16⟩
  | .jmp _ => ⟨0x4000#16, 0xF000#16, 0xF3FF#16⟩
  | .je _ _ => ⟨0x5000#16, 0xF000#16, 0xFBFF#16⟩
  | .call _ => ⟨0x6000#16, 0xF000#16, 0xF3FF#16⟩
  | .ret => ⟨0x7000#16, 0xF000#16, 0xF000#16⟩
  | .ldReg _ _ => ⟨0x8800#16, 0xF800#16, 0xFC01#16⟩
  | .ldImm _ _ => ⟨0x8000#16, 0xF800#16, 0xFFFF#16⟩
  | .stReg _ _ => ⟨0x9800#16, 0xF800#16, 0xFC01#16⟩
  | .stImm _ _ => ⟨0x9000#16, 0xF800#16, 0xFFFF#16⟩
  | .out _ => ⟨0xA000#16, 0xF000#16, 0xF800#16⟩
  | .rst => ⟨0xB000#16, 0xF000#16, 0xF000#16⟩
  | .hlt => ⟨0xC000#16, 0xF000#16, 0xF000#16⟩

/-- The 19 rows in the table's order. -/
def opcodeTable : List TableRow :=
  [Instr.row (.addReg .r1 .r1), Instr.row (.addImm .r1 0), Instr.row (.subReg .r1 .r1), Instr.row (.subImm .r1 0),
   Instr.row (.mulReg .r1 .r1), Instr.row (.mulImm .r1 0), Instr.row (.divReg .r1 .r1), Instr.row (.divImm .r1 0),
   Instr.row (.jmp 0), Instr.row (.je .r1 0), Instr.row (.call 0), Instr.row .ret,
   Instr.row (.ldReg .r1 .r1), Instr.row (.ldImm .r1 0), Instr.row (.stReg .r1 .r1), Instr.row (.stImm .r1 0),
   Instr.row (.out .r1), Instr.row .rst, Instr.row .hlt]

/-- Whether a word is of a row. -/
def TableRow.covers (r : TableRow) (w : InsnWord) : Bool := decide (w &&& r.mask = r.pattern)

end Sys2Proof
end

