-- ==== Sys2Proof/Machine/State.lean ====
section
/-! DEFINITION. Everything the spec gives the machine to hold (10_state.md), the reasons a step can stop, and reset. -/

namespace Sys2Proof.Machine

/-- The seven fatal faults of R171, each with the information R171 records.
Raising one is no stop of the model: the run state becomes `Faulted` (R173, log 7). -/
inductive ExecFault where
  /-- `Push` with `sp = 0` (R47): CALL, interrupt entry. -/
  | stackOverflow
  /-- `Pop` with `sp = MEM_SIZE - 1` (R48): RET, RST. -/
  | stackUnderflow
  /-- `AluExec(DIV)` with right operand 0 (R115): DIV, both forms. -/
  | divisionByZero
  /-- The driver would start iteration ITER_BUDGET + 1 (R108). -/
  | iterationBudgetExceeded
  /-- The fetched word has no instruction (R81, R102). -/
  | unknownOpcode (w : InsnWord)
  /-- A data access at or above MEM_SIZE (R44, R45; the spec's decision D9, log 12): LD, ST. -/
  | dataAddressOutOfRange (addr : Word)
  /-- A fetch at or above PROG_LEN (R101; the spec's decision D10, log 12). -/
  | fetchOutOfRange (pc : Word)
  deriving DecidableEq, Repr

/-- The fault record `(fault, pc, w, tick)` with its mark "in interrupt entry" (R172).
`word` is `none` where no word was fetched: FetchOutOfRange, IterationBudgetExceeded; for the latter, raised between
iterations, `pc` is the pc as it stands (DEDUCED, log 8). -/
structure FaultRecord where
  fault   : ExecFault
  pc      : Word
  word    : Option InsnWord
  tick    : Nat
  inEntry : Bool
  deriving DecidableEq, Repr

/-- `run_state` (R16): `Halted` and `Faulted` are terminal. -/
inductive RunState where
  | running
  | halted
  | faulted (record : FaultRecord)
  deriving DecidableEq, Repr

/-- An entry of the input queue: `(scheduled_tick, value)`, both integers (R19). -/
structure InputEvent where
  scheduledTick : Int
  value         : Int
  deriving DecidableEq, Repr

/-- Data memory: (word address, word) pairs, addresses strictly rising, no pair holding what an unlisted address reads as
(`Memory.wf`). The cell is the W-bit word, the hardware's smallest unit (R41, R42; log 1). -/
abbrev Memory := List (Nat × Word)

/-- What an address nothing has written reads as: 0 (R24, R210; the spec's decision D22, log 5). -/
abbrev unlistedWord : Word := 0#32

/-- The state of the CORE, of the IOController and of the driver (10_state.md). -/
structure State where
  /-- MEM_SIZE and ITER_BUDGET (R3). -/
  cfg          : Config
  /-- `x[R1]` (R10). -/
  r1           : Word
  /-- `x[R2]` (R10). -/
  r2           : Word
  /-- The program counter, an instruction address, W bits wide (R12). -/
  pc           : Word
  /-- The stack pointer, a data word address (R13). -/
  sp           : Nat
  /-- The ALU-left latch (R14). -/
  aluL         : Word
  /-- The ALU-right latch (R14). -/
  aluR         : Word
  /-- The ALU-result latch (R14). -/
  aluOut       : Word
  /-- `run_state` (R16). -/
  runState     : RunState
  /-- The logical step counter (R17). -/
  tick         : Nat
  /-- The interruption flag (R18). -/
  irqFlag      : Bool
  /-- The input queue, ascending by tick (R19), equal ticks admitted (log 19). -/
  inQueue      : List InputEvent
  /-- The output buffer, append-only (R20). -/
  outBuf       : List Int
  /-- Data memory (R21). -/
  dmem         : Memory
  /-- Instruction memory: word k at address k, PROG_LEN its length (R22). -/
  imem         : List InsnWord
  /-- The image's entry address (R22). -/
  entry        : InsnWord
  /-- `n`, the driver's count of iterations (R107). -/
  iterations   : Nat
  /-- The model's own field: interrupt entries not yet matched by an executed RST (R185, log 9). -/
  openHandlers : Nat
  deriving DecidableEq, Repr

/-- PROG_LEN, the number of instruction words loaded (R3). -/
abbrev State.progLen (s : State) : Nat := s.imem.length

/-- The stops of the model that the spec's own faults do not cover. -/
inductive Fault where
  /-- Raised by interrupt entry step (d) when `irq_flag` is set and no event is queued, which "the environment guarantees"
  never happens (R180). Safe: no run that keeps the environment's contract meets it (log 10). -/
  | inputQueueEmpty
  deriving DecidableEq, Repr

/-- What the model does not admit. -/
inductive Refusal where
  /-- An arm of `exec` without a meaning; no arm of this model uses it. Safe. -/
  | notModelled (mnemonic : String)
  /-- Raised by the scheduling step: an event is due while `irq_flag` is set or a handler is still running.
  IRQ_COLLISION_POLICY is open and "a model refuses the run" (R185). Safe (log 9). -/
  | inputCollision
  deriving DecidableEq, Repr

/-- The state at the start of a run, from what load supplies: every other field at its reset value (R24, R210; log 4). -/
def State.loaded (cfg : Config) (entry : InsnWord) (imem : List InsnWord) (dmem : Memory) (inQueue : List InputEvent) :
    State where
  cfg          := cfg
  r1           := 0#32
  r2           := 0#32
  pc           := entry.setWidth 32
  sp           := cfg.memSize - 1
  aluL         := 0#32
  aluR         := 0#32
  aluOut       := 0#32
  runState     := .running
  tick         := 0
  irqFlag      := false
  inQueue      := inQueue
  outBuf       := []
  dmem         := dmem
  imem         := imem
  entry        := entry
  iterations   := 0
  openHandlers := 0

/-- The machine right after reset with nothing loaded: no image, no initial memory, no input events (R24, log 6). -/
def State.reset : State := State.loaded Config.default 0#16 [] [] []

end Sys2Proof.Machine
end

