-- ==== Sys2Proof/Machine/Alu.lean ====
section
/-! DEFINITION. The ALU's four operations as functions of its operands (41_arithmetic.md R115, R117). -/

namespace Sys2Proof.Machine

/-- "The ALU has exactly these four operations" (R115). -/
inductive AluOp where
  | add
  | sub
  | mul
  | div
  deriving DecidableEq, Repr

/-- The result of an operation on the latched operands, `none` where it raises `DivisionByZero` (R115):
the exact signed result, wrapped to W bits, the quotient truncated toward zero (R117). -/
def aluResult (op : AluOp) (l r : Word) : Option Word :=
  match op with
  | .add => some (wrap (sint l + sint r))
  | .sub => some (wrap (sint l - sint r))
  | .mul => some (wrap (sint l * sint r))
  | .div => if sint r = 0 then none else some (wrap (Int.tdiv (sint l) (sint r)))

end Sys2Proof.Machine
end

