-- ==== Sys2Proof/Machine/Operands.lean ====
section
/-! DEFINITION. Where operands come from: registers, latch sources and data addresses (10_state.md R10, R14; 20_memory.md R46). -/

namespace Sys2Proof.Machine

/-- `x[r]` (R10): no alias, no hardwired register. -/
def State.getReg (s : State) : Reg → Word
  | .r1 => s.r1
  | .r2 => s.r2

/-- `x[r] <- v` (R10). -/
def State.setReg (s : State) (r : Reg) (v : Word) : State :=
  match r with
  | .r1 => { s with r1 := v }
  | .r2 => { s with r2 := v }

/-- What an ALU operand latch can be loaded from: "{R1, R2, literal}" (R14, R127). -/
inductive LatchSource where
  | reg (r : Reg)
  | literal (v : Word)
  deriving DecidableEq, Repr

/-- The word a latch source supplies. -/
def LatchSource.value (s : State) : LatchSource → Word
  | .reg r => s.getReg r
  | .literal v => v

/-- The addressing kinds of the datapath's one data access path (R46, R51). -/
inductive Addressing where
  /-- The instruction's imm10, zero-extended. -/
  | absolute (imm : Nat)
  /-- The whole word of the named register, read as unsigned. -/
  | registerIndirect (r : Reg)
  /-- `sp` before the decrement. -/
  | stackPush
  /-- `sp` after the increment. -/
  | stackPop
  deriving DecidableEq, Repr

/-- The data word address each addressing kind supplies (R46, R134). -/
def Addressing.address (s : State) : Addressing → Nat
  | .absolute imm => uint (zextW imm)
  | .registerIndirect r => uint (s.getReg r)
  | .stackPush => s.sp
  | .stackPop => s.sp + 1

/-- `sext_N(v)`: sign extension from N bits, "defined for completeness and used by no rule" (00_scope.md section 5). -/
def sextN (n : Nat) (v : BitVec n) : Word := v.signExtend 32

end Sys2Proof.Machine
end

