-- ==== Sys2Proof/Machine/Flags.lean ====
section
/-! DEFINITION. The CORE's only condition (10_state.md R15): there is no stored flag. -/

namespace Sys2Proof.Machine

/-- `ZeroFlag(r) = (x[r] = 0)`, all W bits, combinational, read by JE only (R15). -/
def zeroFlag (s : State) (r : Reg) : Bool := s.getReg r == 0#32

end Sys2Proof.Machine
end

