-- ==== Sys2Proof/Machine/Ops.lean ====
section
/-! DEFINITION. The named operations over memory, registers, latches and the stack, taking a fault, interrupt entry and
interrupt return (20_memory.md, 41_arithmetic.md, 60_exceptions.md). -/

namespace Sys2Proof.Machine

/-! ### Data memory as plain data (R21; log 1) -/

/-- The canonical form: addresses strictly rising, and no pair holding the unlisted word. -/
abbrev Memory.wf (m : Memory) : Prop :=
  m.Pairwise (fun c d => c.1 < d.1) ∧ ∀ c ∈ m, c.2 ≠ unlistedWord

/-- The word at an address. -/
def Memory.read : Memory → Nat → Word
  | [], _ => unlistedWord
  | (k, w) :: rest, a => if k = a then w else Memory.read rest a

/-- The pair for a word, none for the unlisted word. -/
def Memory.cell (a : Nat) (v : Word) : Memory := if v = unlistedWord then [] else [(a, v)]

/-- One word replaced, in canonical form. -/
def Memory.write : Memory → Nat → Word → Memory
  | [], a, v => Memory.cell a v
  | (k, w) :: rest, a, v =>
    if a < k then Memory.cell a v ++ (k, w) :: rest
    else if a = k then Memory.cell a v ++ rest
    else (k, w) :: Memory.write rest a v

/-! ### Micro-operations -/

/-- How a micro-operation or a sequence of them ends: with a result and a state, or raising a fault with the state the
completed micro-operations left (R173). -/
inductive MicroResult (α : Type) where
  | done (a : α) (s : State)
  | raised (fault : ExecFault) (s : State)
  deriving DecidableEq, Repr

/-- A micro-operation or a sequence of them (R14, R51). -/
abbrev Micro (α : Type) := State → MicroResult α

/-- One after another, "in the order their rule lists them" (R51); nothing follows a raise (R173). -/
def Micro.andThen {α β : Type} (m : Micro α) (f : α → Micro β) : Micro β := fun s =>
  match m s with
  | .done a t => f a t
  | .raised fault t => .raised fault t

/-- The state, for a micro-operation that depends on it. -/
def current : Micro State := fun s => .done s s

/-- `MemRead(addr, 1)`, `addr` the unsigned word address (R44): out of range it makes no access. -/
def memRead (addr : Nat) : Micro Word := fun s =>
  if s.cfg.memSize ≤ addr then .raised (.dataAddressOutOfRange (BitVec.ofNat 32 addr)) s
  else .done (s.dmem.read addr) s

/-- `MemWrite(addr, 1, v)` (R45): exactly one word changes; out of range nothing does. -/
def memWrite (addr : Nat) (v : Word) : Micro Unit := fun s =>
  if s.cfg.memSize ≤ addr then .raised (.dataAddressOutOfRange (BitVec.ofNat 32 addr)) s
  else .done () { s with dmem := s.dmem.write addr v }

/-- `latch_alu_operand(left, from)` and `latch_alu_operand(right, from)` (R14, R127). -/
def latchOperands (left right : LatchSource) : Micro Unit := fun s =>
  .done () { s with aluL := left.value s, aluR := right.value s }

/-- `AluExec(op)` (R115): writes `alu_out`, or raises `DivisionByZero` and writes nothing. -/
def aluExec (op : AluOp) : Micro Unit := fun s =>
  match aluResult op s.aluL s.aluR with
  | some v => .done () { s with aluOut := v }
  | none => .raised .divisionByZero s

/-- The ALU result, as a later micro-operation takes it. -/
def aluOutput : Micro Word := fun s => .done s.aluOut s

/-- A value sent "through the ALU as `+0`" (R50): `alu_l <- v ; alu_r <- 0 ; AluExec(ADD)`, answering `alu_out`.
The value goes left (the spec's decision D15, log 15). -/
def throughAlu (source : LatchSource) : Micro Word :=
  (latchOperands source (.literal 0#32)).andThen fun _ =>
  (aluExec .add).andThen fun _ =>
  aluOutput

/-- `latch_register(r, from)` (R127): `x[r] <- v`. -/
def latchRegister (r : Reg) (v : Word) : Micro Unit := fun s => .done () (s.setReg r v)

/-- `pc <- target` (00_scope.md section 5). -/
def setPc (target : Word) : Micro Unit := fun s => .done () { s with pc := target }

/-- "next": `pc <- wrap(uint(pc) + 1)` (R103). -/
def pcNext : Micro Unit := fun s => .done () { s with pc := s.pc + 1#32 }

/-- `sp <- a` (R13), of `Push` and `Pop` only. -/
def setSp (a : Nat) : Micro Unit := fun s => .done () { s with sp := a }

/-- `Push(v)` (R47): the check first, then the write at the pointer, then the decrement. -/
def push (v : Word) : Micro Unit :=
  current.andThen fun s =>
  if s.sp = 0 then fun t => .raised .stackOverflow t
  else
    (memWrite (Addressing.stackPush.address s) v).andThen fun _ =>
    setSp (s.sp - 1)

/-- `Pop()` (R48): the check first, then the increment, then the read; the popped word stays in memory. -/
def pop : Micro Word :=
  current.andThen fun s =>
  if s.sp = s.cfg.memSize - 1 then fun t => .raised .stackUnderflow t
  else
    (setSp (Addressing.stackPop.address s)).andThen fun _ =>
    memRead (Addressing.stackPop.address s)

/-- `PushViaAlu(v)` (R50). -/
def pushViaAlu (source : LatchSource) : Micro Unit :=
  (throughAlu source).andThen fun v =>
  push v

/-- `OutAppend(n)` (R140): `out_buf <- out_buf ++ [n]`. -/
def outAppend (n : Int) : Micro Unit := fun s => .done () { s with outBuf := s.outBuf ++ [n] }

/-- `run_state <- Halted` (R161). -/
def halt : Micro Unit := fun s => .done () { s with runState := .halted }

/-- `irq_flag <- false` (R178 step (a)). -/
def clearFlag : Micro Unit := fun s => .done () { s with irqFlag := false }

/-- The model's own count: a handler has ended, if one is open (R185, log 9). -/
def closeHandler : Micro Unit := fun s => .done () { s with openHandlers := s.openHandlers - 1 }

/-! ### Taking a fatal fault (R172, R173) -/

/-- The record of a fault: the address and word of the instruction and the tick at which it was raised (R172). -/
def FaultRecord.of (fault : ExecFault) (pc : Word) (word : Option InsnWord) (tick : Nat) (inEntry : Bool) : FaultRecord where
  fault   := fault
  pc      := pc
  word    := word
  tick    := tick
  inEntry := inEntry

/-- `run_state <- Faulted(record)`, in the state the completed micro-operations left (R173). -/
def State.takeFault (s : State) (fault : ExecFault) (pc : Word) (word : Option InsnWord) (inEntry : Bool) : State :=
  { s with runState := .faulted (FaultRecord.of fault pc word s.tick inEntry) }

/-- The numeric id of a fault, for a status output (R171; the spec's decision D24). -/
def ExecFault.id : ExecFault → Nat
  | .stackOverflow => 1
  | .stackUnderflow => 2
  | .divisionByZero => 3
  | .iterationBudgetExceeded => 4
  | .unknownOpcode _ => 5
  | .dataAddressOutOfRange _ => 6
  | .fetchOutOfRange _ => 7

/-- `IMem[pc]`, where there is such a word (R22). -/
def State.currentWord (s : State) : Option InsnWord := s.imem[uint s.pc]?

/-- `Execute(i)` (R100): an instruction's micro-operations run from `s`; a raise makes the run `Faulted`, the record
naming the instruction's own address and word (R172), which `pc` in `s` holds during the whole of it (R103). -/
def execute (body : Micro Unit) (s : State) : Host.Outcome State Fault Refusal :=
  match body s with
  | .done _ t => .next t
  | .raised fault t => .next (t.takeFault fault s.pc s.currentWord false)

/-! ### Interrupt entry (R178 to R181, R187) -/

/-- Steps (a) to (c) of interrupt entry: clear the flag, push R1, R2 and pc, force `pc = 0` (R178). -/
def entryFrame : Micro Unit :=
  clearFlag.andThen fun _ =>
  (pushViaAlu (.reg .r1)).andThen fun _ =>
  (pushViaAlu (.reg .r2)).andThen fun _ =>
  current.andThen fun s =>
  (pushViaAlu (.literal s.pc)).andThen fun _ =>
  setPc 0#32

/-- `InputTake()` (R180): the value of the head of the queue as `wrap(value)`, the head removed (the spec's decision D19, log 13). -/
def inputTake (s : State) : Option (Word × State) :=
  match s.inQueue with
  | [] => none
  | e :: rest => some (wrap e.value, { s with inQueue := rest })

/-- `InterruptEntry()` (R178), `w` the word of the instruction that just completed. A fault in one of the pushes is recorded
"in interrupt entry" with the already updated pc (R172, R187; log 8). -/
def interruptEntry (w : InsnWord) (s : State) : Host.Outcome State Fault Refusal :=
  match entryFrame s with
  | .raised fault t => .next (t.takeFault fault t.pc (some w) true)
  | .done _ t =>
    match inputTake t with
    | none => .fault .inputQueueEmpty
    | some (v, u) => .next { u.setReg .r2 v with openHandlers := u.openHandlers + 1 }

/-! ### Interrupt return (R160, R182) -/

/-- The four pops of RST in order: discard the trampoline's frame, pc through the ALU, R2, R1 (R160).
The last line counts the handler as ended, if one is open (the model's own field, log 9). -/
def interruptReturn : Micro Unit :=
  pop.andThen fun _ =>
  pop.andThen fun v =>
  (throughAlu (.literal v)).andThen fun target =>
  (setPc target).andThen fun _ =>
  pop.andThen fun saved2 =>
  (latchRegister .r2 saved2).andThen fun _ =>
  pop.andThen fun saved1 =>
  (latchRegister .r1 saved1).andThen fun _ =>
  closeHandler

end Sys2Proof.Machine
end

