-- ==== Sys2Proof/Machine/Arithmetic.lean ====
section
/-! DEFINITION. ADD, SUB, MUL and DIV in their two forms (41_arithmetic.md R116 to R127). -/

namespace Sys2Proof.Machine

/-- The register form: ALU(R1, R2) into `dest`, whatever the operand field says (R116; the spec's decision D13, log 16). -/
def arithReg (op : AluOp) (dest : Reg) : Micro Unit :=
  (latchOperands (.reg .r1) (.reg .r2)).andThen fun _ =>
  (aluExec op).andThen fun _ =>
  aluOutput.andThen fun v =>
  (latchRegister dest v).andThen fun _ =>
  pcNext

/-- The immediate form: ALU(dest, zext(imm10)) into `dest` (R119). -/
def arithImm (op : AluOp) (dest : Reg) (imm : Nat) : Micro Unit :=
  (latchOperands (.reg dest) (.literal (zextW imm))).andThen fun _ =>
  (aluExec op).andThen fun _ =>
  aluOutput.andThen fun v =>
  (latchRegister dest v).andThen fun _ =>
  pcNext

/-- ADD, register form (R118); the operand register is no source (R116). -/
def execAddReg (dest _operand : Reg) (s : State) : Host.Outcome State Fault Refusal := execute (arithReg .add dest) s

/-- ADD, immediate form (R119). -/
def execAddImm (dest : Reg) (imm : Nat) (s : State) : Host.Outcome State Fault Refusal := execute (arithImm .add dest imm) s

/-- SUB, register form (R120): R1 - R2 (R116). -/
def execSubReg (dest _operand : Reg) (s : State) : Host.Outcome State Fault Refusal := execute (arithReg .sub dest) s

/-- SUB, immediate form (R121). -/
def execSubImm (dest : Reg) (imm : Nat) (s : State) : Host.Outcome State Fault Refusal := execute (arithImm .sub dest imm) s

/-- MUL, register form (R122). -/
def execMulReg (dest _operand : Reg) (s : State) : Host.Outcome State Fault Refusal := execute (arithReg .mul dest) s

/-- MUL, immediate form (R123). -/
def execMulImm (dest : Reg) (imm : Nat) (s : State) : Host.Outcome State Fault Refusal := execute (arithImm .mul dest imm) s

/-- DIV, register form (R124): `DivisionByZero` when `x[R2] = 0`. -/
def execDivReg (dest _operand : Reg) (s : State) : Host.Outcome State Fault Refusal := execute (arithReg .div dest) s

/-- DIV, immediate form (R125): `DivisionByZero` when `imm10 = 0`. -/
def execDivImm (dest : Reg) (imm : Nat) (s : State) : Host.Outcome State Fault Refusal := execute (arithImm .div dest imm) s

end Sys2Proof.Machine
end

