-- ==== Sys2Proof/Machine/ControlTransfer.lean ====
section
/-! DEFINITION. JMP, JE, CALL and RET (44_control_transfer.md R145 to R151). -/

namespace Sys2Proof.Machine

/-- JE's body: the target if the tested register is 0, else next (R146). -/
def jumpIfZero (tested : Reg) (target : Nat) : Micro Unit :=
  current.andThen fun s =>
  if zeroFlag s tested then setPc (zextW target) else pcNext

/-- CALL's body: push the un-advanced pc through the ALU, then the target (R147; log 18). -/
def callTo (target : Nat) : Micro Unit :=
  current.andThen fun s =>
  (pushViaAlu (.literal s.pc)).andThen fun _ =>
  setPc (zextW target)

/-- RET's body: the whole popped word, no advance afterwards (R148; log 18). -/
def returnFromCall : Micro Unit :=
  pop.andThen fun v =>
  setPc v

/-- JMP (R145). -/
def execJmp (target : Nat) (s : State) : Host.Outcome State Fault Refusal := execute (setPc (zextW target)) s

/-- JE (R146). -/
def execJe (tested : Reg) (target : Nat) (s : State) : Host.Outcome State Fault Refusal := execute (jumpIfZero tested target) s

/-- CALL (R147). -/
def execCall (target : Nat) (s : State) : Host.Outcome State Fault Refusal := execute (callTo target) s

/-- RET (R148). -/
def execRet (s : State) : Host.Outcome State Fault Refusal := execute returnFromCall s

end Sys2Proof.Machine
end

