-- ==== Sys2Proof/Machine/MemoryAccess.lean ====
section
/-! DEFINITION. LD and ST, absolute and register-indirect (42_memory_access.md R130 to R134). -/

namespace Sys2Proof.Machine

/-- `x[reg] <- MemRead(address, 1)`, the address taken before the register is written; the ALU is not used (R130, R131). -/
def load (reg : Reg) (addressing : Addressing) : Micro Unit :=
  current.andThen fun s =>
  (memRead (addressing.address s)).andThen fun v =>
  (latchRegister reg v).andThen fun _ =>
  pcNext

/-- `MemWrite(address, 1, x[reg])`, the value passed through the ALU (R132, R133). -/
def store (reg : Reg) (addressing : Addressing) : Micro Unit :=
  (throughAlu (.reg reg)).andThen fun v =>
  current.andThen fun s =>
  (memWrite (addressing.address s) v).andThen fun _ =>
  pcNext

/-- LD, absolute form (R130). -/
def execLdImm (reg : Reg) (imm : Nat) (s : State) : Host.Outcome State Fault Refusal := execute (load reg (.absolute imm)) s

/-- LD, register-indirect form (R131). -/
def execLdReg (reg addr : Reg) (s : State) : Host.Outcome State Fault Refusal := execute (load reg (.registerIndirect addr)) s

/-- ST, absolute form (R132). -/
def execStImm (reg : Reg) (imm : Nat) (s : State) : Host.Outcome State Fault Refusal := execute (store reg (.absolute imm)) s

/-- ST, register-indirect form (R133). -/
def execStReg (reg addr : Reg) (s : State) : Host.Outcome State Fault Refusal := execute (store reg (.registerIndirect addr)) s

end Sys2Proof.Machine
end

