-- ==== Sys2Proof/Machine/Output.lean ====
section
/-! DEFINITION. OUT (43_output.md R140, R141). -/

namespace Sys2Proof.Machine

/-- `OutAppend(sint(x[src]))`, the value passed through the ALU (R140; signed by the spec's decision D28, log 17). -/
def output (src : Reg) : Micro Unit :=
  (throughAlu (.reg src)).andThen fun v =>
  (outAppend (sint v)).andThen fun _ =>
  pcNext

/-- OUT (R140). -/
def execOut (src : Reg) (s : State) : Host.Outcome State Fault Refusal := execute (output src) s

end Sys2Proof.Machine
end

