-- ==== Sys2Proof/Machine/System.lean ====
section
/-! DEFINITION. RST and HLT (45_system.md R160 to R163). -/

namespace Sys2Proof.Machine

/-- RST, the return from interrupt (R160, R182); it may be executed at any time (R163). -/
def execRst (s : State) : Host.Outcome State Fault Refusal := execute interruptReturn s

/-- HLT (R161): the pc stays at the HLT and nothing else changes. -/
def execHlt (s : State) : Host.Outcome State Fault Refusal := execute halt s

end Sys2Proof.Machine
end

