-- ==== Sys2Proof/Machine/Dispatch.lean ====
section
/-! DEFINITION. Dispatch (40_control_unit.md R102): every decoded instruction has exactly one execution rule.
`exec` is `Execute(i)` of R100, which the iteration calls only in `Running` (log 7). -/

namespace Sys2Proof.Machine

def exec (i : Instr) (s : State) : Host.Outcome State Fault Refusal :=
  match i with
  | .addReg dest operand => Sys2Proof.Machine.execAddReg dest operand s
  | .addImm dest imm => Sys2Proof.Machine.execAddImm dest imm s
  | .subReg dest operand => Sys2Proof.Machine.execSubReg dest operand s
  | .subImm dest imm => Sys2Proof.Machine.execSubImm dest imm s
  | .mulReg dest operand => Sys2Proof.Machine.execMulReg dest operand s
  | .mulImm dest imm => Sys2Proof.Machine.execMulImm dest imm s
  | .divReg dest operand => Sys2Proof.Machine.execDivReg dest operand s
  | .divImm dest imm => Sys2Proof.Machine.execDivImm dest imm s
  | .jmp target => Sys2Proof.Machine.execJmp target s
  | .je tested target => Sys2Proof.Machine.execJe tested target s
  | .call target => Sys2Proof.Machine.execCall target s
  | .ret => Sys2Proof.Machine.execRet s
  | .ldReg reg addr => Sys2Proof.Machine.execLdReg reg addr s
  | .ldImm reg imm => Sys2Proof.Machine.execLdImm reg imm s
  | .stReg reg addr => Sys2Proof.Machine.execStReg reg addr s
  | .stImm reg imm => Sys2Proof.Machine.execStImm reg imm s
  | .out src => Sys2Proof.Machine.execOut src s
  | .rst => Sys2Proof.Machine.execRst s
  | .hlt => Sys2Proof.Machine.execHlt s

end Sys2Proof.Machine
end

