-- ==== Sys2Proof/Machine/ControlUnit.lean ====
section
/-! DEFINITION. The fetch-decode-execute control unit and the driver loop around it (40_control_unit.md R100 to R110). -/

namespace Sys2Proof.Machine

/-- Goes on from a next state; a fault or a refusal stands. -/
def onNext (o : Host.Outcome State Fault Refusal) (f : State → Host.Outcome State Fault Refusal) :
    Host.Outcome State Fault Refusal :=
  match o with
  | .next t => f t
  | .fault r => .fault r
  | .refused r => .refused r

/-- `Fetch()` (R101): the word at `pc`, or `FetchOutOfRange(pc)`; it changes nothing. -/
def fetch (s : State) : Except ExecFault InsnWord :=
  match s.imem[uint s.pc]? with
  | some w => .ok w
  | none => .error (.fetchOutOfRange s.pc)

/-- "if run_state = Running then tick <- tick + 1" (R100, R105; the rate is the spec's decision D18, log 13). -/
def advanceTick (s : State) : State :=
  if s.runState = .running then { s with tick := s.tick + 1 } else s

/-- What follows `Execute(i)` in an iteration (R100, R104): the interrupt check, skipped unless the run is still `Running`
(the spec's decision D17, log 13), then the tick. -/
def afterExecute (w : InsnWord) (s : State) : Host.Outcome State Fault Refusal :=
  if s.runState = .running then
    onNext (if s.irqFlag then interruptEntry w s else .next s) fun t => .next (advanceTick t)
  else .next s

/-- `Iteration()` (R100), which requires `run_state = Running`. An undefined word met at fetch raises `UnknownOpcode`
(R102; the spec's decision D11, log 12). -/
def iteration (s : State) : Host.Outcome State Fault Refusal :=
  match fetch s with
  | .error fault => .next (s.takeFault fault s.pc none false)
  | .ok w =>
    match decode w with
    | .error _ => .next (s.takeFault (.unknownOpcode w) s.pc (some w) false)
    | .ok i => onNext (exec i s) (afterExecute w)

/-- Whether the head of the input queue is due: `scheduled_tick <= tick` (R107). -/
def State.eventDue (s : State) : Bool :=
  match s.inQueue with
  | [] => false
  | e :: _ => decide (e.scheduledTick ≤ s.tick)

/-- A due event met while the flag is set or a handler is still running: the run is not collision-free (R185, log 9). -/
def State.collides (s : State) : Bool := s.eventDue && (s.irqFlag || s.openHandlers != 0)

/-- `Schedule()` (R107): a due event sets the flag and stays queued. -/
def schedule (s : State) : State := if s.eventDue then { s with irqFlag := true } else s

/-- "if n >= ITER_BUDGET" (R107, R108; the spec's decision D27, log 3). -/
def State.budgetSpent (s : State) : Bool :=
  match s.cfg.iterBudget with
  | none => false
  | some b => decide (b ≤ s.iterations)

/-- `n <- n + 1` (R107), after every iteration made, one that raised included (DEDUCED, log 21). -/
def countIteration (s : State) : State := { s with iterations := s.iterations + 1 }

/-- One pass of the driver loop (R107): the budget check, `Schedule()`, `Iteration()`, `n <- n + 1`.
The record of `IterationBudgetExceeded` holds the current pc, where no instruction is being executed (DEDUCED, log 8).
In `Halted` and `Faulted` "no iteration runs, the scheduling step does not run, and no state changes again" (R106, log 7). -/
def driverPass (s : State) : Host.Outcome State Fault Refusal :=
  if s.runState = .running then
    if s.budgetSpent then .next (s.takeFault .iterationBudgetExceeded s.pc none false)
    else if s.collides then .refused .inputCollision
    else onNext (iteration (schedule s)) fun t => .next (countIteration t)
  else .next s

/-- The instruction word at an address replaced, instruction memory filled up to it with zero words where it is shorter (log 6). -/
def placeWord : List InsnWord → Nat → InsnWord → List InsnWord
  | _ :: rest, 0, w => w :: rest
  | [], 0, w => [w]
  | v :: rest, a + 1, w => v :: placeWord rest a w
  | [], a + 1, w => 0#16 :: placeWord [] a w

end Sys2Proof.Machine
end

