-- ==== Sys2Proof/Machine/Step.lean ====
section
/-! DEFINITION. One step of the machine: one pass of the driver loop (40_control_unit.md R100, R107). -/

namespace Sys2Proof.Machine

/-- One step (R107). -/
def step (s : State) : Host.Outcome State Fault Refusal := driverPass s

/-- `s` with the instruction word `w` (its bits at or above `nbits` zero) at the pc, where the next fetch reads it (R101, log 6). -/
def State.withFetchWord (s : State) (nbits w : Nat) : State :=
  { s with imem := placeWord s.imem (uint s.pc) (BitVec.ofNat 16 (w % 2 ^ nbits)) }

end Sys2Proof.Machine
end

