-- ==== Sys2Proof/Machine/Load.lean ====
section
/-! DEFINITION. The program image, and reset and load (30_encoding.md R86, R87; 70_reset_and_hazards.md R210, R211, R214). -/

namespace Sys2Proof.Machine

/-- A checked image: the entry address and the instruction words (R86). -/
structure Image where
  entry : InsnWord
  words : List InsnWord
  deriving DecidableEq, Repr

/-- Why a run does not begin (R87, R174, R210, R214). -/
inductive LoadError where
  /-- The image does not decode (R87), or is longer than instruction memory (D31). -/
  | encoding (e : EncodingError)
  /-- MEM_SIZE outside 1 <= MEM_SIZE < 2^31 (R3). -/
  | memSizeNotAdmitted
  /-- INIT_MEM gives an address outside DMem, or a value outside the W-bit signed range (R210, R214, U20). -/
  | initMemNotAdmitted
  /-- INPUT_SCHEDULE is not "ascending by tick" (R210, R214, U23), equal ticks admitted (log 19). -/
  | scheduleNotAscending
  /-- A value of INPUT_SCHEDULE is outside the W-bit signed range (R214, U20). -/
  | inputValueNotAdmitted
  deriving DecidableEq, Repr

/-- The instruction words of an image, each decoded as it is met (R87; the order of the two errors is log 19). -/
def readWords : List Byte → Except EncodingError (List InsnWord)
  | [] => .ok []
  | [_] => .error .truncatedStream
  | hi :: lo :: rest =>
    match decode (wordOfBytes hi lo) with
    | .error e => .error e
    | .ok _ => (readWords rest).map fun ws => wordOfBytes hi lo :: ws

/-- `[2 bytes big-endian entry address][N x 2-byte big-endian instruction words]` (R86), checked (R87);
N > 1024 is refused as `OperandOutOfRange` (D31, log 19). -/
def parseImage : List Byte → Except EncodingError Image
  | hi :: lo :: rest =>
    match readWords rest with
    | .error e => .error e
    | .ok ws => if imemWords < ws.length then .error .operandOutOfRange else .ok ⟨wordOfBytes hi lo, ws⟩
  | _ => .error .truncatedStream

/-- The image as bytes (R42, R86). -/
def Image.bytes (image : Image) : List Byte := bytesOfWord image.entry ++ image.words.flatMap bytesOfWord

/-- INIT_MEM as data memory: the given (address, value) pairs written in order (R210 step 3, log 19). -/
def initialMemory (initMem : List (Nat × Int)) : Memory :=
  initMem.foldl (fun m c => m.write c.1 (wrap c.2)) []

/-- Reset and load (R210): the checks, then the state a run begins in. Two events may have the same scheduled tick: "ascending
by tick" is read as not descending (DESIGN CHOICE, log 19). -/
def State.load (cfg : Config) (image : List Byte) (initMem : List (Nat × Int)) (inputSchedule : List InputEvent) :
    Except LoadError State :=
  match parseImage image with
  | .error e => .error (.encoding e)
  | .ok p =>
    if ¬ cfg.wf then .error .memSizeNotAdmitted
    else if ¬ ∀ c ∈ initMem, c.1 < cfg.memSize ∧ fitsWord c.2 = true then .error .initMemNotAdmitted
    else if ¬ inputSchedule.Pairwise (fun e f => e.scheduledTick ≤ f.scheduledTick) then .error .scheduleNotAscending
    else if ¬ ∀ e ∈ inputSchedule, fitsWord e.value = true then .error .inputValueNotAdmitted
    else .ok (State.loaded cfg p.entry p.words (initialMemory initMem) inputSchedule)

end Sys2Proof.Machine
end

