-- ==== Sys2Proof/Machine/Assembler.lean ====
section
/-! DEFINITION. The assembler that makes images (30_encoding.md R88 to R93): software outside the CORE, given by the spec as
an interface contract. Text is a list of characters. -/

namespace Sys2Proof.Machine

/-- The assembly errors (R91). -/
inductive AssemblyError where
  | missingEntryLabel
  | duplicateLabel
  | invalidOperand
  | parseError (line : List Char)
  deriving DecidableEq, Repr

/-- "`Program`: entry Address, ordered list of Instruction" (R22, R90). -/
structure Program where
  entry        : Nat
  instructions : List Instr
  deriving DecidableEq, Repr

/-! ### Characters (R88; the spec's decision D23, log 20) -/

/-- White space inside a line. -/
def isBlank (c : Char) : Bool := c == ' ' || c == '\t' || c == '\r'

/-- A character a label may begin with: a letter or `_` (D23). -/
def isNameStart (c : Char) : Bool := c.isAlpha || c == '_'

/-- A label: letters, digits and `_`, not starting with a digit (D23). -/
def isName : List Char → Bool
  | [] => false
  | c :: cs => isNameStart c && cs.all fun d => isNameStart d || d.isDigit

/-- Text without the white space at its two ends. -/
def trim (cs : List Char) : List Char :=
  ((cs.dropWhile isBlank).reverse.dropWhile isBlank).reverse

/-- The pieces of a text between the separators. -/
def splitAt (sep : Char) : List Char → List (List Char)
  | [] => [[]]
  | c :: cs =>
    if c = sep then [] :: splitAt sep cs
    else
      match splitAt sep cs with
      | [] => [[c]]
      | piece :: more => (c :: piece) :: more

/-! ### Pass 1, Normalize, and pass 2, Synthesize vector (R90) -/

/-- "strip everything from the first `;` onward, trim whitespace, discard empty lines". -/
def normalize (text : List Char) : List (List Char) :=
  ((splitAt '\n' text).map fun line => trim (line.takeWhile (· ≠ ';'))).filter (· ≠ [])

/-- The synthetic `CALL INT`, "the very first retained line" (R90 pass 2, R92). -/
def vectorLine : List Char := ['C', 'A', 'L', 'L', ' ', 'I', 'N', 'T']

/-! ### Pass 3, Extract labels (R90) -/

/-- A retained line that holds an instruction: the whole line as pass 1 leaves it, which a `ParseError` carries (log 20), and the
instruction on it. -/
structure SourceLine where
  line        : List Char
  instruction : List Char
  deriving DecidableEq, Repr

/-- The label table: (name, address) pairs. -/
abbrev Labels := List (List Char × Nat)

/-- A label's address. -/
def Labels.find : Labels → List Char → Option Nat
  | [], _ => none
  | (n, a) :: rest, name => if n = name then some a else Labels.find rest name

/-- A line of the form `NAME:` or `NAME: <instruction>` as its name and the rest. -/
def splitLabel (line : List Char) : Option (List Char × List Char) :=
  match line.dropWhile (· ≠ ':') with
  | [] => none
  | _ :: rest =>
    if isName (line.takeWhile (· ≠ ':')) then some (line.takeWhile (· ≠ ':'), trim rest) else none

/-- Each label is bound to the address the next retained instruction will occupy; redefinition is `DuplicateLabel`.
A label after the last instruction, where no next one follows, is bound to the address after it, without an error
(DESIGN CHOICE, log 20). -/
def extractLabels : List (List Char) → Nat → Labels → Except AssemblyError (Labels × List SourceLine)
  | [], _, labels => .ok (labels, [])
  | line :: rest, pc, labels =>
    match splitLabel line with
    | none =>
      (extractLabels rest (pc + 1) labels).map fun r => (r.1, ⟨line, line⟩ :: r.2)
    | some (name, body) =>
      if (labels.find name).isSome then .error .duplicateLabel
      else if body = [] then extractLabels rest pc (labels ++ [(name, pc)])
      else
        (extractLabels rest (pc + 1) (labels ++ [(name, pc)])).map fun r => (r.1, ⟨line, body⟩ :: r.2)

/-! ### Pass 4, Resolve operands (R90) -/

/-- The 13 mnemonics (R77, R89). -/
inductive Mnemonic where
  | add | sub | mul | div | jmp | je | call | ret | ld | st | out | rst | hlt
  deriving DecidableEq, Repr

/-- A mnemonic's spelling, upper case (R89, D23). -/
def mnemonicOf (cs : List Char) : Option Mnemonic :=
  if cs = ['A', 'D', 'D'] then some .add
  else if cs = ['S', 'U', 'B'] then some .sub
  else if cs = ['M', 'U', 'L'] then some .mul
  else if cs = ['D', 'I', 'V'] then some .div
  else if cs = ['J', 'M', 'P'] then some .jmp
  else if cs = ['J', 'E'] then some .je
  else if cs = ['C', 'A', 'L', 'L'] then some .call
  else if cs = ['R', 'E', 'T'] then some .ret
  else if cs = ['L', 'D'] then some .ld
  else if cs = ['S', 'T'] then some .st
  else if cs = ['O', 'U', 'T'] then some .out
  else if cs = ['R', 'S', 'T'] then some .rst
  else if cs = ['H', 'L', 'T'] then some .hlt
  else none

/-- What an operand's text is (R88, R89). -/
inductive Operand where
  | register (r : Reg)
  | decimal (n : Nat)
  | label (name : List Char)
  | address (a : Nat)
  | malformed
  deriving DecidableEq, Repr

/-- The value of a run of decimal digits, leading zeros allowed (DESIGN CHOICE, log 20). -/
def decimalValue (digits : List Char) : Nat :=
  digits.foldl (fun n d => 10 * n + (d.toNat - '0'.toNat)) 0

/-- A register name, an unsigned decimal literal or a label; a register name is never a label, and a literal may have leading
zeros (DESIGN CHOICE beyond D23, log 20). -/
def operandOf (cs : List Char) : Operand :=
  if cs = ['R', '1'] then .register .r1
  else if cs = ['R', '2'] then .register .r2
  else if cs ≠ [] ∧ cs.all (·.isDigit) = true then .decimal (decimalValue cs)
  else if isName cs then .label cs
  else .malformed

/-- An instruction's mnemonic and operands: spaces after the mnemonic, operands separated by commas (D23). -/
def clauseOf (instruction : List Char) : Option Mnemonic × List Operand :=
  let rest := trim (instruction.dropWhile (fun c => !isBlank c))
  (mnemonicOf (instruction.takeWhile (fun c => !isBlank c)),
   if rest = [] then [] else (splitAt ',' rest).map fun piece => operandOf (trim piece))

/-- The trailing label replaced by its address; an undefined label is `InvalidOperand` (R91, D23). -/
def resolveTrailing (labels : Labels) : List Operand → Except AssemblyError (List Operand)
  | [] => .ok []
  | [.label name] =>
    match labels.find name with
    | some a => .ok [.address a]
    | none => .error .invalidOperand
  | o :: rest => (resolveTrailing labels rest).map (o :: ·)

/-- Whether an operand is a label. -/
def Operand.isLabel : Operand → Bool
  | .label _ => true
  | _ => false

/-- "for JMP, JE, CALL only, a trailing label operand is replaced by its resolved numeric address; using a label operand with
any other opcode fails with `AssemblyError::InvalidOperand`". A text that is no opcode is left to pass 5 (log 20). -/
def resolveClause (labels : Labels) : Option Mnemonic × List Operand → Except AssemblyError (Option Mnemonic × List Operand)
  | (none, ops) => .ok (none, ops)
  | (some m, ops) =>
    if m = .jmp ∨ m = .je ∨ m = .call then (resolveTrailing labels ops).map fun ops' => (some m, ops')
    else if ops.any Operand.isLabel then .error .invalidOperand
    else .ok (some m, ops)

/-! ### Pass 5, Parse (R89, R90) -/

/-- A decimal literal in 0..1023 (R88). -/
def literalOf : Operand → Option Nat
  | .decimal n => if n < immLimit then some n else none
  | _ => none

/-- A target: a resolved address, or a decimal one in 0..1023 (R89). -/
def targetOf : Operand → Option Nat
  | .address a => some a
  | o => literalOf o

/-- Format A: a second register is the register form, a literal the immediate form (R89). -/
def parseFormA (regForm : Reg → Reg → Instr) (immForm : Reg → Nat → Instr) : List Operand → Option Instr
  | [.register d, .register q] => some (regForm d q)
  | [.register d, o] => (literalOf o).map (immForm d)
  | _ => none

/-- A clause as an instruction "per opcode-specific operand arity and kind" (R89, R90). -/
def parseClause : Option Mnemonic × List Operand → Option Instr
  | (some .add, ops) => parseFormA .addReg .addImm ops
  | (some .sub, ops) => parseFormA .subReg .subImm ops
  | (some .mul, ops) => parseFormA .mulReg .mulImm ops
  | (some .div, ops) => parseFormA .divReg .divImm ops
  | (some .ld, ops) => parseFormA .ldReg .ldImm ops
  | (some .st, ops) => parseFormA .stReg .stImm ops
  | (some .jmp, [t]) => (targetOf t).map .jmp
  | (some .call, [t]) => (targetOf t).map .call
  | (some .je, [.register q, t]) => (targetOf t).map (.je q)
  | (some .out, [.register q]) => some (.out q)
  | (some .ret, []) => some .ret
  | (some .rst, []) => some .rst
  | (some .hlt, []) => some .hlt
  | _ => none

/-! ### The assembler (R90, R91) -/

/-- A pass over every line, stopping at the first error ("assembly aborts on first error, not accumulated", R91). -/
def eachLine {α β ε : Type} (f : α → Except ε β) : List α → Except ε (List β)
  | [] => .ok []
  | a :: rest =>
    match f a with
    | .error e => .error e
    | .ok b => (eachLine f rest).map (b :: ·)

/-- The mandatory label `START` (R88). -/
def startName : List Char := ['S', 'T', 'A', 'R', 'T']

/-- The mandatory label `INT` (R88). -/
def intName : List Char := ['I', 'N', 'T']

/-- Passes 4 and 5 over the retained lines (R90). The "offending line" a `ParseError` carries is the retained line: comment and
outer white space stripped by pass 1, its label kept (DESIGN CHOICE, log 20). -/
def resolveAndParse (labels : Labels) (lines : List SourceLine) : Except AssemblyError (List Instr) :=
  match eachLine (fun l => (resolveClause labels (clauseOf l.instruction)).map fun c => (l.line, c)) lines with
  | .error e => .error e
  | .ok clauses =>
    eachLine (fun c =>
      match parseClause c.2 with
      | some i => .ok i
      | none => .error (.parseError c.1)) clauses

/-- The assembler: the five passes in order, the two mandatory labels checked when the labels are known (R90, R91, log 20). -/
def assemble (text : List Char) : Except AssemblyError Program :=
  match extractLabels (vectorLine :: normalize text) 0 [] with
  | .error e => .error e
  | .ok (labels, lines) =>
    match labels.find startName, labels.find intName with
    | some entry, some _ => (resolveAndParse labels lines).map fun is => ⟨entry, is⟩
    | _, _ => .error .missingEntryLabel

/-- A program as an image: every instruction encoded, a label operand above 1023 `OperandOutOfRange` (R83, R91).
"An image with N > 1024 or with ENTRY >= N is not produced by the assembler" (R86), so an entry is at most 1023; the same error
reports either (R91 of a `START` above 1023; for the rest DESIGN CHOICE, log 20). -/
def Program.image (p : Program) : Except EncodingError Image :=
  if p.entry < p.instructions.length ∧ p.instructions.length ≤ imemWords then
    (eachLine encodeChecked p.instructions).map fun ws => ⟨BitVec.ofNat 16 p.entry, ws⟩
  else .error .operandOutOfRange

end Sys2Proof.Machine
end

