-- ==== Sys2Proof/Safety.lean ====
section
/-! DEFINITION. What counts as a safe state and a safe run, in the terms the statements use. -/

namespace Sys2Proof.Machine

/-- The invariant of the machine: the spec's own ranges and forms, which every step keeps. -/
structure State.Inv (s : State) : Prop where
  /-- 1 <= MEM_SIZE < 2^31 (R3). -/
  config   : s.cfg.wf
  /-- "0 <= stack_pointer <= memory_size - 1 at all times" (R13). -/
  stack    : s.sp ≤ s.cfg.memSize - 1
  /-- Data memory is in canonical form (log 1). -/
  memory   : s.dmem.wf
  /-- Data memory holds only the addresses 0..MEM_SIZE-1 (R21). -/
  inMemory : ∀ c ∈ s.dmem, c.1 < s.cfg.memSize
  /-- PROG_LEN <= 1024 (R3). -/
  program  : s.progLen ≤ imemWords
  /-- The input queue is "ascending by tick" (R19), equal ticks admitted (log 19). -/
  queue    : s.inQueue.Pairwise fun e f => e.scheduledTick ≤ f.scheduledTick
  /-- "the queue is not empty whenever irq_flag is true" (R180). -/
  pending  : s.irqFlag = true → s.inQueue ≠ []
  /-- The driver never starts more than ITER_BUDGET iterations (R108). -/
  budget   : ∀ b, s.cfg.iterBudget = some b → s.iterations ≤ b

/-- The run ended in a fatal fault (R110). -/
def State.isFaulted (s : State) : Prop := ∃ record, s.runState = .faulted record

/-- The scheduling step of this state is collision-free (R185). -/
def State.collisionFree (s : State) : Prop := s.collides = false

/-- Everything an iteration is started under: `Running` (R100), the iteration budget not spent (R108), no collision (R185). -/
structure State.CanStep (s : State) : Prop where
  running   : s.runState = .running
  budget    : s.budgetSpent = false
  collision : s.collisionFree

/-- What no instruction of the CORE changes: the parameters, the program, the tick, the interruption flag, the input queue and
the driver's count (R17, R19, R22, R176). -/
structure State.SameOutside (s t : State) : Prop where
  cfg        : t.cfg = s.cfg
  imem       : t.imem = s.imem
  entry      : t.entry = s.entry
  tick       : t.tick = s.tick
  irqFlag    : t.irqFlag = s.irqFlag
  inQueue    : t.inQueue = s.inQueue
  iterations : t.iterations = s.iterations

/-- Every word of data memory reads as before. -/
def State.SameMemory (s t : State) : Prop := ∀ a, t.dmem.read a = s.dmem.read a

/-- Every word of data memory but the one at `a` reads as before. -/
def State.SameMemoryBut (s t : State) (a : Nat) : Prop := ∀ b, b ≠ a → t.dmem.read b = s.dmem.read b

/-- An arithmetic instruction's operation, destination, left and right source (R116, R119): none for the other instructions. -/
def arithmeticOf : Instr → Option (AluOp × Reg × LatchSource × LatchSource)
  | .addReg d _ => some (.add, d, .reg .r1, .reg .r2)
  | .addImm d n => some (.add, d, .reg d, .literal (zextW n))
  | .subReg d _ => some (.sub, d, .reg .r1, .reg .r2)
  | .subImm d n => some (.sub, d, .reg d, .literal (zextW n))
  | .mulReg d _ => some (.mul, d, .reg .r1, .reg .r2)
  | .mulImm d n => some (.mul, d, .reg d, .literal (zextW n))
  | .divReg d _ => some (.div, d, .reg .r1, .reg .r2)
  | .divImm d n => some (.div, d, .reg d, .literal (zextW n))
  | .jmp _ => none
  | .je _ _ => none
  | .call _ => none
  | .ret => none
  | .ldReg _ _ => none
  | .ldImm _ _ => none
  | .stReg _ _ => none
  | .stImm _ _ => none
  | .out _ => none
  | .rst => none
  | .hlt => none

/-- `k` steps from `s` end in `t`, none of them a fault or refusal of the model. -/
def reaches : Nat → State → State → Prop
  | 0, s, t => s = t
  | k + 1, s, t => ∃ u, step s = .next u ∧ reaches k u t

end Sys2Proof.Machine
end

