-- ==== Sys2Proof/Certificates/Slice0/Obligations.lean ====
section
/-! DEFINITION. The statements for the provers. Each docstring names the rule of spec/ it formalises, and the log entry of
notes/assumptions/ where it rests on a choice the spec or the model made. -/

open Sys2Proof Sys2Proof.Machine

/-! ### The codec (30_encoding.md) -/

/-- R84: decode of encode is the instruction, for every representable one; they are 16413, each with its own canonical word.
The opcode and selector numbers are the spec's decisions D1 to D5 (log 11); the law does not depend on them. -/
def Obligations.CodecRoundTrip : Prop :=
  (∀ i : Instr, i.wellFormed = true → encodeChecked i = .ok (encode i) ∧ decode (encode i) = .ok i) ∧
  (∀ i j : Instr, i.wellFormed = true → j.wellFormed = true → encode i = encode j → i = j) ∧
  ∃ representable : List Instr,
    representable.Nodup ∧ (∀ i, i ∈ representable ↔ i.wellFormed = true) ∧ representable.length = 16413

/-- R82, R83: what a word decodes to is representable, and encoding it gives the word with its ignored bits 0
(ignored bits are the spec's decision D5, log 11). -/
def Obligations.EncodeOfDecodeClearsIgnoredBits : Prop :=
  ∀ (w : InsnWord) (i : Instr), decode w = .ok i → i.wellFormed = true ∧ encode i = w &&& i.row.used

/-- R82: words that differ in ignored bits only decode to the same instruction (the spec's decision D5, log 11). -/
def Obligations.IgnoredBitsDoNotMatter : Prop :=
  ∀ (w v : InsnWord) (i : Instr), decode w = .ok i → v &&& i.row.used = w &&& i.row.used → decode v = .ok i

/-- R77, R80: the decoder agrees with the 19 rows of opcode_table.json, both ways (D1 to D4, log 11). -/
def Obligations.DecodeFollowsOpcodeTable : Prop :=
  ∀ w : InsnWord,
    (∀ i, decode w = .ok i → i.row ∈ opcodeTable ∧ i.row.covers w = true) ∧
    (∀ r ∈ opcodeTable, r.covers w = true → ∃ i, decode w = .ok i ∧ i.row = r)

/-- R77: no word is of two rows of the table. -/
def Obligations.OpcodeTableRowsAreDisjoint : Prop :=
  opcodeTable.length = 19 ∧ opcodeTable.Pairwise fun r q => ∀ w, ¬ (r.covers w = true ∧ q.covers w = true)

/-- R81: the decoder fails exactly on the nibbles 13, 14 and 15 (numbers by the spec's decision D1, log 11). -/
def Obligations.UndefinedNibblesAreUnknown : Prop :=
  ∀ w : InsnWord,
    (13 ≤ (w.extractLsb' 12 4).toNat → decode w = .error (.unknownOpcode w)) ∧
    ((w.extractLsb' 12 4).toNat < 13 → ∃ i, decode w = .ok i)

/-- 95_test_vectors.md V-DEC: words written out bit by bit decode to the instructions they stand for, one at least of
each format, ignored bits and illegal nibbles among them (D1 to D5, log 11). -/
def Obligations.SpecWordsDecode : Prop :=
  decode 0b0000100000000001#16 = .ok (.addReg .r1 .r2) ∧
  decode 0b0000101111111111#16 = .ok (.addReg .r1 .r2) ∧
  decode 0b0001010000000001#16 = .ok (.subImm .r2 1) ∧
  decode 0b0011000000001010#16 = .ok (.divImm .r1 10) ∧
  decode 0b0100110000000011#16 = .ok (.jmp 3) ∧
  decode 0b0101110000000111#16 = .ok (.je .r2 7) ∧
  decode 0b1000110000000000#16 = .ok (.ldReg .r2 .r1) ∧
  decode 0b1001000000011110#16 = .ok (.stImm .r1 30) ∧
  decode 0b1010100000000000#16 = .ok (.out .r2) ∧
  decode 0b1011000000000000#16 = .ok .rst ∧
  decode 0b1100101010111100#16 = .ok .hlt ∧
  decode 0b1110000100100011#16 = .error (.unknownOpcode 0b1110000100100011#16)

/-! ### Image and load (R42, R86, R87, R210) -/

/-- R42, R86, R87: an image is admitted exactly when its bytes are a big-endian entry and big-endian words that all decode,
at most 1024 of them (the bound refused at load is the spec's decision D31, log 19). -/
def Obligations.ImageAdmittedExactly : Prop :=
  ∀ (bytes : List Byte) (image : Image),
    parseImage bytes = .ok image ↔
      bytes = image.bytes ∧ (∀ w ∈ image.words, ∃ i, decode w = .ok i) ∧ image.words.length ≤ 1024

/-- R87: a byte left over after whole words is `TruncatedStream`, and so is an image of fewer than 2 bytes; a word that
does not decode is `UnknownOpcode` where it is met first (that order is DEDUCED, log 19); more than 1024 words that all decode,
with no byte left over, are `OperandOutOfRange` (the spec's decision D31, log 19). -/
def Obligations.ImageErrors : Prop :=
  (∀ (image : Image) (b : Byte), (∀ w ∈ image.words, ∃ i, decode w = .ok i) →
    parseImage (image.bytes ++ [b]) = .error .truncatedStream) ∧
  parseImage [] = .error .truncatedStream ∧ (∀ b, parseImage [b] = .error .truncatedStream) ∧
  (∀ (image : Image) (w : InsnWord) (rest : List Byte), (∀ v ∈ image.words, ∃ i, decode v = .ok i) →
    13 ≤ (w.extractLsb' 12 4).toNat → parseImage (image.bytes ++ bytesOfWord w ++ rest) = .error (.unknownOpcode w)) ∧
  (∀ image : Image, (∀ w ∈ image.words, ∃ i, decode w = .ok i) → 1024 < image.words.length →
    parseImage image.bytes = .error .operandOutOfRange)

/-- R210, R24: what load leaves. Registers, latches, tick and unnamed memory at 0 are the spec's decision D22 (logs 4, 5);
this statement fixes the values the source gives and the memory INIT_MEM names. -/
def Obligations.LoadLeavesResetState : Prop :=
  ∀ (cfg : Config) (bytes : List Byte) (initMem : List (Nat × Int)) (events : List InputEvent) (s : State),
    State.load cfg bytes initMem events = .ok s →
      s.Inv ∧ s.cfg = cfg ∧ parseImage bytes = .ok ⟨s.entry, s.imem⟩ ∧ s.pc = s.entry.setWidth 32 ∧
      s.sp = cfg.memSize - 1 ∧ s.runState = .running ∧ s.irqFlag = false ∧ s.outBuf = [] ∧ s.inQueue = events ∧
      ((initMem.map Prod.fst).Nodup → ∀ c ∈ initMem, sint (s.dmem.read c.1) = c.2)

/-- R24: the reset state meets the invariant and has every value of R24's table. R1, R2, the latches, the tick and unnamed memory
at 0 are the spec's decision D22 (logs 4, 5); that nothing is loaded and no event queued is the model's choice (log 6). -/
def Obligations.ResetMeetsInvariant : Prop :=
  State.reset.Inv ∧ State.reset.r1 = 0#32 ∧ State.reset.r2 = 0#32 ∧ State.reset.pc = State.reset.entry.setWidth 32 ∧
  State.reset.sp = State.reset.cfg.memSize - 1 ∧ State.reset.aluL = 0#32 ∧ State.reset.aluR = 0#32 ∧
  State.reset.aluOut = 0#32 ∧ State.reset.runState = .running ∧ State.reset.tick = 0 ∧ State.reset.irqFlag = false ∧
  State.reset.inQueue = [] ∧ State.reset.outBuf = [] ∧ (∀ a, State.reset.dmem.read a = 0#32) ∧
  State.reset.imem = [] ∧ State.reset.entry = 0#16

/-! ### Arithmetic (41_arithmetic.md) -/

/-- R118, R120, R122, R116: the register forms of ADD, SUB and MUL complete in every state: ALU(R1, R2) into `dest`,
the operand register no source (the spec's decision D13, log 16; the width is D6, log 2). -/
def Obligations.ArithmeticRegisterFormsComplete : Prop :=
  ∀ (d q : Reg) (s : State),
    exec (.addReg d q) s = .next { s.setReg d (wrap (sint s.r1 + sint s.r2)) with
      aluL := s.r1, aluR := s.r2, aluOut := wrap (sint s.r1 + sint s.r2), pc := s.pc + 1#32 } ∧
    exec (.subReg d q) s = .next { s.setReg d (wrap (sint s.r1 - sint s.r2)) with
      aluL := s.r1, aluR := s.r2, aluOut := wrap (sint s.r1 - sint s.r2), pc := s.pc + 1#32 } ∧
    exec (.mulReg d q) s = .next { s.setReg d (wrap (sint s.r1 * sint s.r2)) with
      aluL := s.r1, aluR := s.r2, aluOut := wrap (sint s.r1 * sint s.r2), pc := s.pc + 1#32 }

/-- R119, R121, R123: the immediate forms of ADD, SUB and MUL complete in every state: ALU(dest, zext(imm10)) into `dest`. -/
def Obligations.ArithmeticImmediateFormsComplete : Prop :=
  ∀ (d : Reg) (n : Nat) (s : State),
    exec (.addImm d n) s = .next { s.setReg d (wrap (sint (s.getReg d) + sint (zextW n))) with
      aluL := s.getReg d, aluR := zextW n, aluOut := wrap (sint (s.getReg d) + sint (zextW n)), pc := s.pc + 1#32 } ∧
    exec (.subImm d n) s = .next { s.setReg d (wrap (sint (s.getReg d) - sint (zextW n))) with
      aluL := s.getReg d, aluR := zextW n, aluOut := wrap (sint (s.getReg d) - sint (zextW n)), pc := s.pc + 1#32 } ∧
    exec (.mulImm d n) s = .next { s.setReg d (wrap (sint (s.getReg d) * sint (zextW n))) with
      aluL := s.getReg d, aluR := zextW n, aluOut := wrap (sint (s.getReg d) * sint (zextW n)), pc := s.pc + 1#32 }

/-- R124, R125: DIV completes whenever the right operand is not 0: the quotient truncated toward zero, wrapped. -/
def Obligations.DivisionCompletes : Prop :=
  (∀ (d q : Reg) (s : State), s.r2 ≠ 0#32 →
    exec (.divReg d q) s = .next { s.setReg d (wrap (Int.tdiv (sint s.r1) (sint s.r2))) with
      aluL := s.r1, aluR := s.r2, aluOut := wrap (Int.tdiv (sint s.r1) (sint s.r2)), pc := s.pc + 1#32 }) ∧
  (∀ (d : Reg) (n : Nat) (s : State), 0 < n → n < 1024 →
    exec (.divImm d n) s = .next { s.setReg d (wrap (Int.tdiv (sint (s.getReg d)) n)) with
      aluL := s.getReg d, aluR := zextW n, aluOut := wrap (Int.tdiv (sint (s.getReg d)) n), pc := s.pc + 1#32 })

/-- R117(c), R124, R125: DIV with right operand 0 raises `DivisionByZero` for every left operand; the destination, the pc, the
memory and the output stay, the operand latches are loaded. (What a faulted state holds is the spec's decision D16, log 7.) -/
def Obligations.DivisionByZeroFaults : Prop :=
  ∀ (d q : Reg) (s : State),
    (s.r2 = 0#32 → exec (.divReg d q) s = .next { s with
      aluL := s.r1, aluR := 0#32
      runState := .faulted ⟨.divisionByZero, s.pc, s.imem[uint s.pc]?, s.tick, false⟩ }) ∧
    exec (.divImm d 0) s = .next { s with
      aluL := s.getReg d, aluR := 0#32
      runState := .faulted ⟨.divisionByZero, s.pc, s.imem[uint s.pc]?, s.tick, false⟩ }

/-- R117: the ALU's integer laws at W = 32 (the spec's decision D6, log 2): ADD, SUB and MUL keep the low 32 bits of the exact
result in the unsigned reading too; DIV has the exact truncated quotient in every case but the one that overflows, which
wraps; it has no result exactly for a right operand of 0. -/
def Obligations.AluIntegerLaws : Prop :=
  ∀ l r : Word,
    (∃ v, aluResult .add l r = some v ∧ uint v = (uint l + uint r) % 2 ^ 32) ∧
    (∃ v, aluResult .sub l r = some v ∧ uint v = (uint l + (2 ^ 32 - uint r)) % 2 ^ 32) ∧
    (∃ v, aluResult .mul l r = some v ∧ uint v = (uint l * uint r) % 2 ^ 32) ∧
    (aluResult .div l r = none ↔ r = 0#32) ∧
    (r ≠ 0#32 → ¬ (sint l = -2147483648 ∧ sint r = -1) →
      ∃ v, aluResult .div l r = some v ∧ sint v = Int.tdiv (sint l) (sint r)) ∧
    (sint l = -2147483648 → sint r = -1 → aluResult .div l r = some l)

/-- R126: each of the eight forms reads its sources first, writes exactly one general register, the three latches and the pc,
accesses no memory and appends no output; one that raises writes neither register nor pc. -/
def Obligations.ArithmeticFrame : Prop :=
  ∀ (i : Instr) (op : AluOp) (d : Reg) (left right : LatchSource) (s t : State),
    arithmeticOf i = some (op, d, left, right) → s.runState = .running → exec i s = .next t →
      (∀ r, r ≠ d → t.getReg r = s.getReg r) ∧ t.aluL = left.value s ∧ t.aluR = right.value s ∧
      s.SameMemory t ∧ t.outBuf = s.outBuf ∧ t.sp = s.sp ∧ t.openHandlers = s.openHandlers ∧ s.SameOutside t ∧
      (t.runState = .running → aluResult op (left.value s) (right.value s) = some t.aluOut ∧
        t.getReg d = t.aluOut ∧ t.pc = s.pc + 1#32) ∧
      (t.runState ≠ .running → t.getReg d = s.getReg d ∧ t.aluOut = s.aluOut ∧ t.pc = s.pc)

/-! ### Memory access and output (42_memory_access.md, 43_output.md) -/

/-- R130, R131: LD completes for every address below MEM_SIZE: one word into the register, the address read first. -/
def Obligations.LoadsComplete : Prop :=
  ∀ (r : Reg) (s : State),
    (∀ n, n < 1024 → n < s.cfg.memSize →
      exec (.ldImm r n) s = .next { s.setReg r (s.dmem.read n) with pc := s.pc + 1#32 }) ∧
    (∀ a, uint (s.getReg a) < s.cfg.memSize →
      exec (.ldReg r a) s = .next { s.setReg r (s.dmem.read (uint (s.getReg a))) with pc := s.pc + 1#32 })

/-- R132, R133: ST completes for every address below MEM_SIZE: the register's word, sent through the ALU as `+0`, is stored.
(Which latch gets the value is the spec's decision D15, log 15.) -/
def Obligations.StoresComplete : Prop :=
  ∀ (r : Reg) (s : State),
    (∀ n, n < 1024 → n < s.cfg.memSize →
      exec (.stImm r n) s = .next { s with
        aluL := s.getReg r, aluR := 0#32, aluOut := s.getReg r
        dmem := s.dmem.write n (s.getReg r), pc := s.pc + 1#32 }) ∧
    (∀ a, uint (s.getReg a) < s.cfg.memSize →
      exec (.stReg r a) s = .next { s with
        aluL := s.getReg r, aluR := 0#32, aluOut := s.getReg r
        dmem := s.dmem.write (uint (s.getReg a)) (s.getReg r), pc := s.pc + 1#32 })

/-- R44, R45, R130 to R133: an address at or above MEM_SIZE raises `DataAddressOutOfRange` of it; registers, memory and pc stay.
(That there is such a fault is the spec's decision D9, log 12; what a faulted state holds is D16, log 7.) -/
def Obligations.AccessOutOfRangeFaults : Prop :=
  ∀ (r a : Reg) (n : Nat) (s : State),
    (n < 1024 → s.cfg.memSize ≤ n →
      exec (.ldImm r n) s = .next (s.takeFault (.dataAddressOutOfRange (zextW n)) s.pc s.imem[uint s.pc]? false) ∧
      exec (.stImm r n) s = .next ({ s with aluL := s.getReg r, aluR := 0#32, aluOut := s.getReg r }.takeFault
        (.dataAddressOutOfRange (zextW n)) s.pc s.imem[uint s.pc]? false)) ∧
    (s.cfg.memSize ≤ uint (s.getReg a) →
      exec (.ldReg r a) s = .next (s.takeFault (.dataAddressOutOfRange (s.getReg a)) s.pc s.imem[uint s.pc]? false) ∧
      exec (.stReg r a) s = .next ({ s with aluL := s.getReg r, aluR := 0#32, aluOut := s.getReg r }.takeFault
        (.dataAddressOutOfRange (s.getReg a)) s.pc s.imem[uint s.pc]? false))

/-- R130, R131, R134: LD changes its register and the pc only; every word of memory reads as before. -/
def Obligations.LoadFrame : Prop :=
  ∀ (r a : Reg) (n : Nat) (i : Instr) (s t : State),
    i = .ldImm r n ∨ i = .ldReg r a → exec i s = .next t →
      (∀ q, q ≠ r → t.getReg q = s.getReg q) ∧ s.SameMemory t ∧ t.sp = s.sp ∧ t.outBuf = s.outBuf ∧
      t.aluL = s.aluL ∧ t.aluR = s.aluR ∧ t.aluOut = s.aluOut ∧ t.openHandlers = s.openHandlers ∧ s.SameOutside t

/-- R45, R132, R133, R134: ST changes the one word at its address, the latches and the pc; no register, no other word. -/
def Obligations.StoreFrame : Prop :=
  ∀ (r a : Reg) (n : Nat) (i : Instr) (addressing : Addressing) (s t : State),
    i = .stImm r n ∧ addressing = .absolute n ∨ i = .stReg r a ∧ addressing = .registerIndirect a →
    s.dmem.wf → s.runState = .running → exec i s = .next t →
      (∀ q, t.getReg q = s.getReg q) ∧ s.SameMemoryBut t (addressing.address s) ∧
      (t.runState = .running → t.dmem.read (addressing.address s) = s.getReg r) ∧
      (t.runState ≠ .running → s.SameMemory t) ∧
      t.sp = s.sp ∧ t.outBuf = s.outBuf ∧ t.openHandlers = s.openHandlers ∧ s.SameOutside t

/-- R140: OUT completes in every state and appends one integer, the signed value of its register (signed by the spec's decision
D28, log 17), at the end of the buffer. -/
def Obligations.OutCompletes : Prop :=
  ∀ (r : Reg) (s : State),
    exec (.out r) s = .next { s with
      aluL := s.getReg r, aluR := 0#32, aluOut := s.getReg r
      outBuf := s.outBuf ++ [sint (s.getReg r)], pc := s.pc + 1#32 }

/-! ### Control transfer and system (44_control_transfer.md, 45_system.md) -/

/-- R145, R146: JMP and JE complete in every state and change the pc only. -/
def Obligations.JumpsComplete : Prop :=
  ∀ (r : Reg) (n : Nat) (s : State),
    exec (.jmp n) s = .next { s with pc := zextW n } ∧
    (s.getReg r = 0#32 → exec (.je r n) s = .next { s with pc := zextW n }) ∧
    (s.getReg r ≠ 0#32 → exec (.je r n) s = .next { s with pc := s.pc + 1#32 })

/-- R147, R148: CALL completes when the stack has room and pushes its own address; RET completes when the stack is not empty and
loads the whole popped word, with no advance (the spec's decisions D12 and D14, log 18). -/
def Obligations.CallAndReturnComplete : Prop :=
  ∀ (n : Nat) (s : State),
    (s.sp ≠ 0 → s.sp < s.cfg.memSize →
      exec (.call n) s = .next { s with
        aluL := s.pc, aluR := 0#32, aluOut := s.pc
        dmem := s.dmem.write s.sp s.pc, sp := s.sp - 1, pc := zextW n }) ∧
    (s.sp < s.cfg.memSize - 1 →
      exec .ret s = .next { s with sp := s.sp + 1, pc := s.dmem.read (s.sp + 1) })

/-- R160, R163: RST completes whenever four words are on the stack, in a handler or not: discard, pc, R2, R1.
(`openHandlers` is the model's own count, log 9.) -/
def Obligations.InterruptReturnCompletes : Prop :=
  ∀ s : State, s.sp + 4 < s.cfg.memSize →
    exec .rst s = .next { s with
      aluL := s.dmem.read (s.sp + 2), aluR := 0#32, aluOut := s.dmem.read (s.sp + 2)
      pc := s.dmem.read (s.sp + 2), r2 := s.dmem.read (s.sp + 3), r1 := s.dmem.read (s.sp + 4)
      sp := s.sp + 4, openHandlers := s.openHandlers - 1 }

/-- R161: HLT completes in every state: the run state becomes `Halted` and nothing else changes, the pc included. -/
def Obligations.HaltCompletes : Prop :=
  ∀ s : State, exec .hlt s = .next { s with runState := .halted }

/-- R147, R148, R160, R173: the stack faults of CALL, RET and RST. CALL and RET change no memory and no pc; RST raises at the pop
that finds the stack empty and the pops before it keep their effect. (When a push or pop raises is the spec's decision D29,
what a faulted state holds D16: logs 7, 14.) -/
def Obligations.StackFaults : Prop :=
  ∀ (n : Nat) (s : State),
    (s.sp = 0 → exec (.call n) s = .next ({ s with aluL := s.pc, aluR := 0#32, aluOut := s.pc }.takeFault
      .stackOverflow s.pc s.imem[uint s.pc]? false)) ∧
    (s.sp = s.cfg.memSize - 1 →
      exec .ret s = .next (s.takeFault .stackUnderflow s.pc s.imem[uint s.pc]? false) ∧
      exec .rst s = .next (s.takeFault .stackUnderflow s.pc s.imem[uint s.pc]? false)) ∧
    (s.sp + 1 = s.cfg.memSize - 1 →
      exec .rst s = .next ({ s with sp := s.sp + 1 }.takeFault .stackUnderflow s.pc s.imem[uint s.pc]? false)) ∧
    (s.sp + 2 = s.cfg.memSize - 1 →
      exec .rst s = .next ({ s with
        aluL := s.dmem.read (s.sp + 2), aluR := 0#32, aluOut := s.dmem.read (s.sp + 2)
        pc := s.dmem.read (s.sp + 2), sp := s.sp + 2 }.takeFault .stackUnderflow s.pc s.imem[uint s.pc]? false)) ∧
    (s.sp + 3 = s.cfg.memSize - 1 →
      exec .rst s = .next ({ s with
        aluL := s.dmem.read (s.sp + 2), aluR := 0#32, aluOut := s.dmem.read (s.sp + 2)
        pc := s.dmem.read (s.sp + 2), r2 := s.dmem.read (s.sp + 3), sp := s.sp + 3 }.takeFault
          .stackUnderflow s.pc s.imem[uint s.pc]? false))

/-- R145 to R148, R161: what JMP, JE, CALL, RET and HLT leave unchanged, whether they complete or raise. CALL stores one word,
at the stack pointer; the others store none. -/
def Obligations.ControlTransferFrame : Prop :=
  ∀ (r : Reg) (n : Nat) (i : Instr) (s t : State),
    i = .jmp n ∨ i = .je r n ∨ i = .call n ∨ i = .ret ∨ i = .hlt → exec i s = .next t →
      (∀ q, t.getReg q = s.getReg q) ∧ t.outBuf = s.outBuf ∧ t.openHandlers = s.openHandlers ∧ s.SameOutside t ∧
      (i ≠ .call n → s.SameMemory t ∧ t.aluL = s.aluL ∧ t.aluR = s.aluR ∧ t.aluOut = s.aluOut) ∧
      (i = .call n → s.SameMemoryBut t (Addressing.stackPush.address s)) ∧
      (i ≠ .call n → i ≠ .ret → t.sp = s.sp)

/-- R160, R182: what RST leaves unchanged, whether it completes or raises: every word of memory ("a popped word stays in memory"),
the output, the flag and queue, the tick and the program; R1 too unless all four pops were made. -/
def Obligations.InterruptReturnFrame : Prop :=
  ∀ s t : State, s.runState = .running → exec .rst s = .next t →
    s.SameMemory t ∧ t.outBuf = s.outBuf ∧ s.SameOutside t ∧
    (t.runState ≠ .running → t.r1 = s.r1 ∧ t.openHandlers = s.openHandlers)

/-! ### Stack and interrupts (20_memory.md, 60_exceptions.md) -/

/-- R47, R48, R49: pushes and pops are symmetric inverses for matched pairs. -/
def Obligations.PushesAndPopsAreInverses : Prop :=
  ∀ (v w : Word) (s : State), s.Inv → 2 ≤ s.sp →
    ∃ t u p q, push v s = .done () t ∧ push w t = .done () u ∧ pop u = .done w p ∧ pop p = .done v q ∧
      u.sp = s.sp - 2 ∧ q.sp = s.sp ∧ ∀ a, a ≠ s.sp → a ≠ s.sp - 1 → q.dmem.read a = s.dmem.read a

/-- R149, stack balance: after CALL at pc p and a callee that leaves the saved word and the stack pointer as CALL left them,
RET gives pc p; "the instruction fetched after that RET is the CALL at p again". -/
def Obligations.StackBalance : Prop :=
  ∀ (n : Nat) (s t callee : State),
    s.Inv → s.sp ≠ 0 → exec (.call n) s = .next t →
    callee.cfg = s.cfg → callee.imem = s.imem → callee.sp = t.sp → callee.dmem.read s.sp = t.dmem.read s.sp →
      ∃ u, exec .ret callee = .next u ∧ u.pc = s.pc ∧ u.sp = s.sp ∧ u.runState = callee.runState ∧ fetch u = fetch s

/-- R178, R179: interrupt entry with room for its three words: the flag cleared, R1, R2 and the pc on the stack, pc 0, R2 the
input value, the event taken from the queue (the moment of the taking is the spec's decision D19, log 13), and nothing else. -/
def Obligations.InterruptEntryCompletes : Prop :=
  ∀ (w : InsnWord) (e : InputEvent) (rest : List InputEvent) (s : State),
    s.Inv → 3 ≤ s.sp → s.inQueue = e :: rest →
      ∃ t, interruptEntry w s = .next t ∧ t.irqFlag = false ∧ t.pc = 0#32 ∧ t.r1 = s.r1 ∧ t.r2 = wrap e.value ∧
        t.sp = s.sp - 3 ∧ t.dmem.read s.sp = s.r1 ∧ t.dmem.read (s.sp - 1) = s.r2 ∧ t.dmem.read (s.sp - 2) = s.pc ∧
        (∀ a, a ≠ s.sp → a ≠ s.sp - 1 → a ≠ s.sp - 2 → t.dmem.read a = s.dmem.read a) ∧
        t.inQueue = rest ∧ t.runState = s.runState ∧ t.tick = s.tick ∧ t.outBuf = s.outBuf ∧ t.imem = s.imem ∧
        t.entry = s.entry ∧ t.cfg = s.cfg

/-- R187: with fewer than three free words a push of interrupt entry raises `StackOverflow`: the flag is already cleared, the
completed pushes stay, the pc is not forced to 0, R2 is not loaded, the event stays queued. (The spec's decision D30; the
record's word and mark are log 8.) -/
def Obligations.InterruptEntryOverflow : Prop :=
  ∀ (w : InsnWord) (s : State), s.Inv → s.sp < 3 →
    ∃ t, interruptEntry w s = .next t ∧ t.runState = .faulted ⟨.stackOverflow, s.pc, some w, s.tick, true⟩ ∧
      t.irqFlag = false ∧ t.pc = s.pc ∧ t.r1 = s.r1 ∧ t.r2 = s.r2 ∧ t.inQueue = s.inQueue ∧ t.outBuf = s.outBuf ∧
      t.tick = s.tick ∧ t.sp = 0 ∧ (1 ≤ s.sp → t.dmem.read s.sp = s.r1) ∧ (2 ≤ s.sp → t.dmem.read (s.sp - 1) = s.r2) ∧
      ∀ a, (a = 0 ∨ s.sp < a) → t.dmem.read a = s.dmem.read a

/-- R179: the interrupt frame, three words after the entry and the fourth after the trampoline's CALL at address 0. -/
def Obligations.InterruptFrameLayout : Prop :=
  ∀ (w : InsnWord) (e : InputEvent) (rest : List InputEvent) (s : State),
    s.Inv → 3 ≤ s.sp → s.inQueue = e :: rest →
      ∃ t, interruptEntry w s = .next t ∧ t.sp = s.sp - 3 ∧ t.pc = 0#32 ∧ t.dmem.read s.sp = s.r1 ∧
        t.dmem.read (s.sp - 1) = s.r2 ∧ t.dmem.read (s.sp - 2) = s.pc ∧
        (4 ≤ s.sp → ∀ n, ∃ u, exec (.call n) t = .next u ∧ u.sp = s.sp - 4 ∧ u.pc = zextW n ∧
          u.dmem.read s.sp = s.r1 ∧ u.dmem.read (s.sp - 1) = s.r2 ∧ u.dmem.read (s.sp - 2) = s.pc ∧
          u.dmem.read (s.sp - 3) = 0#32)

/-- R183, interrupt transparency: after interrupt entry and the trampoline's CALL, whatever the handler did to R1, R2 and the
rest of the machine, if it leaves the four words of the frame and the stack pointer, RST restores R1, R2 and the pc exactly,
and leaves "data memory, out_buf and tick" as the handler left them. -/
def Obligations.InterruptTransparency : Prop :=
  ∀ (w : InsnWord) (n : Nat) (s t u handler : State),
    s.Inv → s.irqFlag = true → 4 ≤ s.sp → interruptEntry w s = .next t → exec (.call n) t = .next u →
    handler.cfg = u.cfg → handler.sp = u.sp →
    (∀ a, s.sp - 4 < a → a ≤ s.sp → handler.dmem.read a = u.dmem.read a) →
      ∃ v, exec .rst handler = .next v ∧ v.r1 = s.r1 ∧ v.r2 = s.r2 ∧ v.pc = s.pc ∧ v.sp = s.sp ∧
        v.runState = handler.runState ∧ handler.SameMemory v ∧ v.outBuf = handler.outBuf ∧ v.tick = handler.tick ∧
        v.irqFlag = handler.irqFlag

/-! ### The control unit (40_control_unit.md) -/

/-- R100, R107: when the run goes on, the word at the pc decodes to `i` and no event collides, a step is the scheduling step, the
execution of `i`, what follows it in the iteration, and the driver's count (counted also where the iteration raised: DEDUCED,
log 21). -/
def Obligations.StepRunsDecodedInstruction : Prop :=
  ∀ (s : State) (w : InsnWord) (i : Instr),
    s.CanStep → s.imem[uint s.pc]? = some w → decode w = .ok i →
      step s = onNext (onNext (exec i (schedule s)) (afterExecute w)) fun t => .next (countIteration t)

/-- R100, R104, R105: what follows the instruction: the interrupt check exactly when the run is still `Running`, then the tick
if it still is (the skip after HLT and the tick's rate are the spec's decisions D17 and D18, log 13). -/
def Obligations.AfterExecuteOrder : Prop :=
  ∀ (w : InsnWord) (s t : State),
    (s.runState ≠ .running → afterExecute w s = .next s) ∧
    (s.runState = .running → s.irqFlag = false → afterExecute w s = .next { s with tick := s.tick + 1 }) ∧
    (s.runState = .running → s.irqFlag = true → interruptEntry w s = .next t →
      (t.runState = .running → afterExecute w s = .next { t with tick := t.tick + 1 }) ∧
      (t.runState ≠ .running → afterExecute w s = .next t))

/-- R101, R102: a fetch at or above PROG_LEN raises `FetchOutOfRange(pc)`, a word without an instruction `UnknownOpcode`; nothing
executes. (Both faults are the spec's decisions D10 and D11, log 12; that the FetchOutOfRange record holds no word is DEDUCED,
log 8, and that the driver's count goes up after a raise is DEDUCED, log 21.) -/
def Obligations.FetchFaults : Prop :=
  ∀ s : State, s.CanStep →
    (s.progLen ≤ uint s.pc →
      step s = .next (countIteration ((schedule s).takeFault (.fetchOutOfRange s.pc) s.pc none false))) ∧
    (∀ w, s.imem[uint s.pc]? = some w → 13 ≤ (w.extractLsb' 12 4).toNat →
      step s = .next (countIteration ((schedule s).takeFault (.unknownOpcode w) s.pc (some w) false)))

/-- R107, R176: the scheduling step sets the flag exactly when the head of the queue is due, and changes nothing else. -/
def Obligations.ScheduleSetsFlagWhenDue : Prop :=
  ∀ s : State,
    (∀ e rest, s.inQueue = e :: rest → e.scheduledTick ≤ s.tick → schedule s = { s with irqFlag := true }) ∧
    (∀ e rest, s.inQueue = e :: rest → ¬ e.scheduledTick ≤ s.tick → schedule s = s) ∧
    (s.inQueue = [] → schedule s = s)

/-- R108: when the driver would start iteration ITER_BUDGET + 1 it raises `IterationBudgetExceeded`, before the scheduling step.
(When it is raised is the spec's decision D27; the record's absent word and its pc are DEDUCED, log 8.) -/
def Obligations.BudgetExceededFaults : Prop :=
  ∀ (s : State) (b : Nat), s.runState = .running → s.cfg.iterBudget = some b → b ≤ s.iterations →
    step s = .next { s with runState := .faulted ⟨.iterationBudgetExceeded, s.pc, none, s.tick, false⟩ }

/-- 40_control_unit.md: `Halted` and `Faulted` are terminal, no state changes again, however many steps follow. That a step in them
answers, and answers the same state, is DEDUCED (log 7). -/
def Obligations.HaltedAndFaultedAreTerminal : Prop :=
  ∀ (k : Nat) (s t : State), s.runState ≠ .running → (reaches k s t ↔ t = s)

/-- R185, R180: where the model stops: a refusal is a due event met while the flag is set or a handler still runs (the spec's
decision D20, log 9), and a fault is an interrupt taken with no event queued (log 10). -/
def Obligations.StepStopsOnlyOnInputContract : Prop :=
  ∀ s : State,
    (∀ r, step s = .refused r ↔ r = .inputCollision ∧ s.runState = .running ∧ s.budgetSpent = false ∧ s.collides = true) ∧
    (∀ r, step s = .fault r → r = .inputQueueEmpty ∧ s.irqFlag = true ∧ s.inQueue = [])

/-- R221: every iteration in `Running` completes: with the environment's contract kept there is always a next state. -/
def Obligations.RunningStepCompletes : Prop :=
  ∀ s : State, s.Inv → s.CanStep → ∃ t, step s = .next t

/-- R173, D16: `exec` always answers a next state. Where an instruction raises, that state is `Faulted` and no stop; that exec
answers also in a terminal state, where no iteration calls it, is DEDUCED (log 7). -/
def Obligations.EveryInstructionAnswers : Prop :=
  ∀ (i : Instr) (s : State), ∃ t, exec i s = .next t

/-- R13, R21, R3, R19, R180, R108: every step keeps the invariant: the stack pointer in 0..MEM_SIZE-1, memory canonical and within
MEM_SIZE, at most 1024 instruction words, the queue ascending, an event queued while the flag is set, the budget kept. -/
def Obligations.StepKeepsInvariant : Prop :=
  ∀ s t : State, s.Inv → step s = .next t → t.Inv

/-- R185, R177: from a state with no interrupt pending and at most one in flight, every step of an admitted run keeps it so: one
interrupt at a time, and no flag left set between iterations while the run goes on. (`openHandlers` is log 9.) -/
def Obligations.OneInterruptInFlight : Prop :=
  ∀ s t : State, s.openHandlers ≤ 1 → (s.runState = .running → s.irqFlag = false) → step s = .next t →
    t.openHandlers ≤ 1 ∧ (t.runState = .running → t.irqFlag = false)

/-- R56: "stores are never seen by instruction fetch because they cannot reach" instruction memory: no step changes the program,
its entry or the parameters, and what fetch answers does not depend on data memory. -/
def Obligations.ProgramIsImmutable : Prop :=
  (∀ s t : State, step s = .next t → t.imem = s.imem ∧ t.entry = s.entry ∧ t.cfg = s.cfg) ∧
  (∀ (s : State) (m : Memory), fetch { s with dmem := m } = fetch s)

/-- R20: the output buffer is append-only, only OUT appends to it, one element at the end, and nothing reads it: with other
elements before it, every instruction and every step (scheduling, fetch and interrupt entry in it) answers the same with those
elements before it. -/
def Obligations.OnlyOutAppends : Prop :=
  (∀ s t : State, step s = .next t →
    t.outBuf = s.outBuf ∨
    ∃ w r n, s.imem[uint s.pc]? = some w ∧ decode w = .ok (.out r) ∧ t.outBuf = s.outBuf ++ [n]) ∧
  (∀ (i : Instr) (earlier : List Int) (s : State),
    exec i { s with outBuf := earlier ++ s.outBuf } =
      onNext (exec i s) fun t => .next { t with outBuf := earlier ++ t.outBuf }) ∧
  (∀ (earlier : List Int) (s : State),
    step { s with outBuf := earlier ++ s.outBuf } =
      onNext (step s) fun t => .next { t with outBuf := earlier ++ t.outBuf })

/-- R173, R58: a faulting instruction leaves the output buffer "unchanged from before the faulting instruction", and the
program, the tick, the flag and the queue too (that a fault is a state of the run is the spec's decision D16, log 7). -/
def Obligations.FaultLeavesOutput : Prop :=
  ∀ (i : Instr) (s t : State), s.runState = .running → exec i s = .next t → t.isFaulted →
    t.outBuf = s.outBuf ∧ s.SameOutside t

/-- R176: the interruption flag is "set only by the environment's scheduling step" and "cleared only by interrupt entry"; no
instruction sets, clears or reads it: executing with another flag gives the same state with that flag. The order of the iteration
in the third clause is R100, R104 and R107, its tick's advance R105 (the spec's decision D18, log 13); that the driver's count
goes up also where the entry raised is DEDUCED (log 21). -/
def Obligations.InterruptFlagSetByScheduleClearedByEntry : Prop :=
  (∀ (i : Instr) (b : Bool) (s : State),
    exec i { s with irqFlag := b } = onNext (exec i s) fun t => .next { t with irqFlag := b }) ∧
  (∀ s t : State, step s = .next t → s.irqFlag = false → t.irqFlag = true → s.eventDue = true) ∧
  (∀ s t : State, step s = .next t → s.irqFlag = true → t.irqFlag = false →
    ∃ w i u v, s.imem[uint s.pc]? = some w ∧ decode w = .ok i ∧ exec i (schedule s) = .next u ∧ u.irqFlag = true ∧
      interruptEntry w u = .next v ∧ t = countIteration (advanceTick v)) ∧
  (∀ (w : InsnWord) (u v : State), interruptEntry w u = .next v → v.irqFlag = false)

/-- R105, R161, R173: a step that ends in `Running` advances the tick by exactly 1, one that halts or faults by 0 (the rate is the
spec's decision D18, log 13). -/
def Obligations.TickAdvancesOncePerIteration : Prop :=
  ∀ s t : State, s.runState = .running → step s = .next t →
    (t.runState = .running → t.tick = s.tick + 1) ∧ (t.runState ≠ .running → t.tick = s.tick)

/-- R172, R103: the record of a fault raised by an instruction names its own address and word and the tick (the form of the record
is the spec's decision D24, log 8). -/
def Obligations.FaultRecordNamesInstruction : Prop :=
  ∀ (i : Instr) (s t : State) (record : FaultRecord), s.runState = .running → exec i s = .next t →
    t.runState = .faulted record →
      record.pc = s.pc ∧ record.word = s.imem[uint s.pc]? ∧ record.tick = s.tick ∧ record.inEntry = false

/-- R171: which instruction raises which fault. "ADD, SUB, MUL, JMP, JE, OUT and HLT never raise anything." -/
def Obligations.OnlyListedFaults : Prop :=
  ∀ (i : Instr) (s t : State) (record : FaultRecord), s.Inv → s.runState = .running → exec i s = .next t →
    t.runState = .faulted record →
      (∃ d q, i = .divReg d q ∧ record.fault = .divisionByZero ∧ s.r2 = 0#32) ∨
      (∃ d n, i = .divImm d n ∧ record.fault = .divisionByZero ∧ zextW n = 0#32) ∨
      (∃ n, i = .call n ∧ record.fault = .stackOverflow ∧ s.sp = 0) ∨
      (i = .ret ∧ record.fault = .stackUnderflow ∧ s.sp = s.cfg.memSize - 1) ∨
      (i = .rst ∧ record.fault = .stackUnderflow ∧ s.cfg.memSize ≤ s.sp + 4) ∨
      (∃ r n, (i = .ldImm r n ∨ i = .stImm r n) ∧ record.fault = .dataAddressOutOfRange (zextW n) ∧
        s.cfg.memSize ≤ uint (zextW n)) ∨
      (∃ r a, (i = .ldReg r a ∨ i = .stReg r a) ∧ record.fault = .dataAddressOutOfRange (s.getReg a) ∧
        s.cfg.memSize ≤ uint (s.getReg a))

/-- R13, R134: only CALL, RET and RST move the stack pointer. -/
def Obligations.OnlyStackInstructionsMoveSp : Prop :=
  ∀ (i : Instr) (s t : State), exec i s = .next t →
    t.sp = s.sp ∨ (∃ n, i = .call n) ∨ i = .ret ∨ i = .rst

/-- R15: `zero_flag(r)` is true iff the register holds exactly 0; it is no stored state: the registers alone decide it. -/
def Obligations.ZeroFlagIsCombinational : Prop :=
  (∀ (s : State) (r : Reg), zeroFlag s r = true ↔ s.getReg r = 0#32) ∧
  (∀ (s t : State) (r : Reg), t.getReg r = s.getReg r → zeroFlag t r = zeroFlag s r)

/-! ### The assembler (R88 to R92) -/

/-- R22, R90, R92: every assembled program has the synthetic `Call(INT)` at address 0, its target the address bound to INT, and its
entry is the address bound to START; both are at least 1. -/
def Obligations.AssembledProgramHasTrampoline : Prop :=
  ∀ (text : List Char) (p : Program), assemble text = .ok p →
    ∃ labels lines handler, extractLabels (vectorLine :: normalize text) 0 [] = .ok (labels, lines) ∧
      labels.find startName = some p.entry ∧ 1 ≤ p.entry ∧
      labels.find intName = some handler ∧ 1 ≤ handler ∧ p.instructions[0]? = some (.call handler)

/-- R83, R86, R91: a program has an image exactly when its operands fit their fields, its entry is one of its instructions and it
fits instruction memory; any other program is `OperandOutOfRange` (that error for an entry at or above N and for N above 1024
is the model's choice, log 20). -/
def Obligations.ProgramImageExactly : Prop :=
  ∀ p : Program,
    (∀ image, p.image = .ok image ↔
      (∀ i ∈ p.instructions, i.wellFormed = true) ∧ p.entry < p.instructions.length ∧ p.instructions.length ≤ 1024 ∧
        image = ⟨BitVec.ofNat 16 p.entry, p.instructions.map encode⟩) ∧
    (∀ e, p.image = .error e → e = .operandOutOfRange)

/-- R86: an assembled image has an entry of at least 1 and at most 1023, below N, at most 1024 words, and is admitted by load's
check of it. -/
def Obligations.AssembledImageIsAdmitted : Prop :=
  ∀ (text : List Char) (p : Program) (image : Image), assemble text = .ok p → p.image = .ok image →
    image.entry.toNat = p.entry ∧ 1 ≤ image.entry.toNat ∧ image.entry.toNat ≤ 1023 ∧
    image.entry.toNat < image.words.length ∧ image.words.length ≤ 1024 ∧ parseImage image.bytes = .ok image
end

