-- ==== Sys2Proof/Laws/Codec.lean ====
section
/-! SUPPORT. The codec's bytes and fields: big-endian words, the undefined nibbles, reading back an image
(30_encoding.md R42, R80, R81, R86, R87). -/

namespace Sys2Proof

/-! ### Bytes -/

theorem toNat_wordOfBytes (hi lo : Byte) : (wordOfBytes hi lo).toNat = 256 * hi.toNat + lo.toNat := by
  have := lo.isLt
  show (hi ++ lo : BitVec (8 + 8)).toNat = _
  rw [BitVec.toNat_append, ← Nat.shiftLeft_add_eq_or_of_lt (by omega), Nat.shiftLeft_eq]
  omega

@[simp] theorem bytesOfWord_wordOfBytes (hi lo : Byte) : bytesOfWord (wordOfBytes hi lo) = [hi, lo] := by
  have h := toNat_wordOfBytes hi lo
  have b1 := hi.isLt
  have b2 := lo.isLt
  have e1 : (wordOfBytes hi lo).extractLsb' 8 8 = hi := by
    apply BitVec.eq_of_toNat_eq
    rw [BitVec.extractLsb'_toNat, h, Nat.shiftRight_eq_div_pow]
    omega
  have e2 : (wordOfBytes hi lo).extractLsb' 0 8 = lo := by
    apply BitVec.eq_of_toNat_eq
    rw [BitVec.extractLsb'_toNat, h, Nat.shiftRight_eq_div_pow]
    omega
  rw [bytesOfWord, e1, e2]

@[simp] theorem wordOfBytes_halves (w : InsnWord) : wordOfBytes (w.extractLsb' 8 8) (w.extractLsb' 0 8) = w := by
  have := w.isLt
  apply BitVec.eq_of_toNat_eq
  rw [toNat_wordOfBytes, BitVec.extractLsb'_toNat, BitVec.extractLsb'_toNat]
  simp only [Nat.shiftRight_eq_div_pow]
  omega

@[simp] theorem bytesOfWord_append (w : InsnWord) (bytes : List Byte) :
    bytesOfWord w ++ bytes = w.extractLsb' 8 8 :: w.extractLsb' 0 8 :: bytes := rfl

theorem decodeBytes_bytesOfWord (w : InsnWord) (rest : List Byte) :
    decodeBytes (bytesOfWord w ++ rest) = (decode w).map fun i => (i, rest) := by
  simp [decodeBytes]

/-! ### Fields and undefined nibbles -/

@[simp] theorem regOfBit_true : regOfBit true = .r2 := rfl
@[simp] theorem regOfBit_false : regOfBit false = .r1 := rfl

theorem immField_lt (w : InsnWord) : immField w < immLimit := (w.extractLsb' 0 10).isLt

theorem decode_undefined (w : InsnWord) (h : 13 ≤ (opField w).toNat) : decode w = .error (.unknownOpcode w) := by
  unfold decode
  split <;> first | omega | rfl

theorem decode_defined (w : InsnWord) (h : (opField w).toNat < 13) : ∃ i, decode w = .ok i := by
  unfold decode
  generalize (opField w).toNat = n at h
  interval_cases n <;> exact ⟨_, rfl⟩

/-! ### The bits each format writes (R72 to R76, R83) -/

theorem encodeAImm_bit (op : BitVec 4) (d : Reg) (n k : Nat) :
    (encodeAImm op d n).getLsbD k =
      if k < 10 then (BitVec.ofNat 10 n).getLsbD k
      else if k - 10 < 1 then (selOf d).getLsbD (k - 10)
      else if k - 10 - 1 < 1 then (0#1).getLsbD (k - 10 - 1) else op.getLsbD (k - 10 - 1 - 1) := by
  show (op ++ 0#1 ++ selOf d ++ BitVec.ofNat 10 n : BitVec (4 + 1 + 1 + 10)).getLsbD k = _
  rw [BitVec.getLsbD_append, BitVec.getLsbD_append, BitVec.getLsbD_append]

theorem encodeAReg_bit (op : BitVec 4) (d q : Reg) (k : Nat) :
    (encodeAReg op d q).getLsbD k =
      if k < 1 then (selOf q).getLsbD k
      else if k - 1 < 9 then (0#9).getLsbD (k - 1)
      else if k - 1 - 9 < 1 then (selOf d).getLsbD (k - 1 - 9)
      else if k - 1 - 9 - 1 < 1 then (1#1).getLsbD (k - 1 - 9 - 1) else op.getLsbD (k - 1 - 9 - 1 - 1) := by
  show (op ++ 1#1 ++ selOf d ++ 0#9 ++ selOf q : BitVec (4 + 1 + 1 + 9 + 1)).getLsbD k = _
  rw [BitVec.getLsbD_append, BitVec.getLsbD_append, BitVec.getLsbD_append, BitVec.getLsbD_append]

theorem encodeJ_bit (op : BitVec 4) (t k : Nat) :
    (encodeJ op t).getLsbD k =
      if k < 10 then (BitVec.ofNat 10 t).getLsbD k
      else if k - 10 < 2 then (0#2).getLsbD (k - 10) else op.getLsbD (k - 10 - 2) := by
  show (op ++ 0#2 ++ BitVec.ofNat 10 t : BitVec (4 + 2 + 10)).getLsbD k = _
  rw [BitVec.getLsbD_append, BitVec.getLsbD_append]

theorem encodeT_bit (op : BitVec 4) (q : Reg) (t k : Nat) :
    (encodeT op q t).getLsbD k =
      if k < 10 then (BitVec.ofNat 10 t).getLsbD k
      else if k - 10 < 1 then (0#1).getLsbD (k - 10)
      else if k - 10 - 1 < 1 then (selOf q).getLsbD (k - 10 - 1) else op.getLsbD (k - 10 - 1 - 1) := by
  show (op ++ selOf q ++ 0#1 ++ BitVec.ofNat 10 t : BitVec (4 + 1 + 1 + 10)).getLsbD k = _
  rw [BitVec.getLsbD_append, BitVec.getLsbD_append, BitVec.getLsbD_append]

theorem bit_of_and {w m : InsnWord} (k : Nat) : (w &&& m).getLsbD k = (w.getLsbD k && m.getLsbD k) := BitVec.getLsbD_and

theorem encodeAImm_mask (op : BitVec 4) (d : Reg) (n : Nat) : encodeAImm op d n &&& 0xF800#16 = encodeAImm op .r1 0 := by
  apply BitVec.eq_of_getLsbD_eq
  intro k hk
  rw [bit_of_and, encodeAImm_bit, encodeAImm_bit]
  interval_cases k <;> simp
  rfl

theorem encodeAReg_mask (op : BitVec 4) (d q : Reg) : encodeAReg op d q &&& 0xF800#16 = encodeAReg op .r1 .r1 := by
  cases d <;> cases q <;> revert op <;> decide

theorem encodeJ_mask (op : BitVec 4) (t : Nat) : encodeJ op t &&& 0xF000#16 = encodeJ op 0 := by
  apply BitVec.eq_of_getLsbD_eq
  intro k hk
  rw [bit_of_and, encodeJ_bit, encodeJ_bit]
  interval_cases k <;> simp

theorem encodeT_mask (op : BitVec 4) (q : Reg) (t : Nat) : encodeT op q t &&& 0xF000#16 = encodeT op .r1 0 := by
  apply BitVec.eq_of_getLsbD_eq
  intro k hk
  rw [bit_of_and, encodeT_bit, encodeT_bit]
  interval_cases k <;> simp
  rfl

theorem encodeO_mask (op : BitVec 4) (q : Reg) : encodeO op q &&& 0xF000#16 = encodeO op .r1 := by
  cases q <;> revert op <;> decide

namespace Machine

/-! ### Reading an image back -/

theorem readWords_words (ws : List InsnWord) (h : ∀ w ∈ ws, ∃ i, decode w = .ok i) :
    readWords (ws.flatMap bytesOfWord) = .ok ws := by
  induction ws with
  | nil => rfl
  | cons w ws ih =>
    obtain ⟨i, hi⟩ := h w (by simp)
    rw [List.flatMap_cons, bytesOfWord_append, readWords, wordOfBytes_halves, hi, ih fun v hv => h v (by simp [hv])]
    rfl

/-- An error met after words that decode is the error of the whole stream. -/
theorem readWords_error (ws : List InsnWord) (h : ∀ w ∈ ws, ∃ i, decode w = .ok i) (tail : List Byte) (e : EncodingError)
    (ht : readWords tail = .error e) : readWords (ws.flatMap bytesOfWord ++ tail) = .error e := by
  induction ws with
  | nil => exact ht
  | cons w ws ih =>
    obtain ⟨i, hi⟩ := h w (by simp)
    rw [List.flatMap_cons, List.append_assoc, bytesOfWord_append, readWords, wordOfBytes_halves, hi,
      ih fun v hv => h v (by simp [hv])]
    rfl

end Machine

end Sys2Proof
end

