-- ==== Sys2Proof/Laws/Assembler.lean ====
section
/-! SUPPORT. The assembler's passes: going over the lines, the label table, the synthetic first line
(30_encoding.md R90, R92). -/

namespace Sys2Proof.Machine

/-! ### A pass over every line -/

section
variable {α β ε : Type} {f : α → Except ε β}

/-- A pass answers a list exactly when it answers each element, in order. -/
theorem eachLine_ok (l : List α) (r : List β) : eachLine f l = .ok r ↔ List.Forall₂ (fun a b => f a = .ok b) l r := by
  induction l generalizing r with
  | nil => cases r <;> simp [eachLine]
  | cons a l ih =>
    cases hf : f a with
    | error e => cases r <;> simp [eachLine, hf]
    | ok b =>
      cases hl : eachLine f l with
      | error e =>
        cases r with
        | nil => simp [eachLine, hf, hl, Except.map]
        | cons c r => simp [eachLine, hf, hl, Except.map, ← ih r]
      | ok bs =>
        cases r with
        | nil => simp [eachLine, hf, hl, Except.map]
        | cons c r => simp [eachLine, hf, hl, Except.map, ← ih r]

/-- The error of a pass is the error of an element. -/
theorem eachLine_error {l : List α} {e : ε} (h : eachLine f l = .error e) : ∃ a ∈ l, f a = .error e := by
  induction l with
  | nil => cases h
  | cons a l ih =>
    unfold eachLine at h
    cases hf : f a with
    | error e' => rw [hf] at h; cases h; exact ⟨a, by simp, hf⟩
    | ok b =>
      rw [hf] at h
      cases hl : eachLine f l with
      | error e' =>
        rw [hl] at h; cases h
        obtain ⟨c, hc, he⟩ := ih hl
        exact ⟨c, by simp [hc], he⟩
      | ok bs => rw [hl] at h; cases h

end

/-! ### The label table -/

theorem Labels.find_mem {labels : Labels} {name : List Char} {a : Nat} (h : labels.find name = some a) :
    (name, a) ∈ labels := by
  induction labels with
  | nil => cases h
  | cons c labels ih =>
    obtain ⟨n, b⟩ := c
    unfold Labels.find at h
    split at h
    · rename_i hn; cases h; subst hn; simp
    · exact List.mem_cons_of_mem _ (ih h)

/-- No label's address is below the address the extraction starts at. -/
theorem extractLabels_ge {lines : List (List Char)} {pc low : Nat} {labels labels' : Labels} {out : List SourceLine}
    (h : extractLabels lines pc labels = .ok (labels', out)) (hpc : low ≤ pc) (hl : ∀ c ∈ labels, low ≤ c.2) :
    ∀ c ∈ labels', low ≤ c.2 := by
  induction lines generalizing pc labels out with
  | nil => cases h; exact hl
  | cons line rest ih =>
    have hl' : ∀ name, ∀ c ∈ labels ++ [(name, pc)], low ≤ c.2 := by
      intro name c hc
      rcases List.mem_append.1 hc with hc | hc
      · exact hl c hc
      · rw [List.mem_singleton.1 hc]; exact hpc
    unfold extractLabels at h
    split at h
    · cases hr : extractLabels rest (pc + 1) labels with
      | error e => rw [hr] at h; cases h
      | ok r => rw [hr] at h; cases h; exact ih hr (by omega) hl
    · split at h
      · cases h
      · split at h
        · exact ih h hpc (hl' _)
        · rename_i name body _ _ _
          cases hr : extractLabels rest (pc + 1) (labels ++ [(name, pc)]) with
          | error e => rw [hr] at h; cases h
          | ok r => rw [hr] at h; cases h; exact ih hr (by omega) (hl' _)

/-! ### The synthetic first line (R90 pass 2, R92) -/

theorem extractLabels_vectorLine (rest : List (List Char)) :
    extractLabels (vectorLine :: rest) 0 [] =
      (extractLabels rest 1 []).map fun r => (r.1, ⟨vectorLine, vectorLine⟩ :: r.2) := rfl

theorem clauseOf_vectorLine : clauseOf vectorLine = (some .call, [.label intName]) := by decide

/-- The synthetic line becomes a CALL of the address `INT` is bound to. -/
theorem resolve_vectorLine {labels : Labels} {a : Nat} (h : labels.find intName = some a) :
    resolveClause labels (clauseOf vectorLine) = .ok (some .call, [.address a]) := by
  rw [clauseOf_vectorLine]
  simp [resolveClause, resolveTrailing, h, Except.map]

theorem parseClause_call (a : Nat) : parseClause (some .call, [.address a]) = some (.call a) := rfl

/-! ### Encoding a program -/

theorem encodeChecked_ok (i : Instr) (w : InsnWord) : encodeChecked i = .ok w ↔ i.wellFormed = true ∧ encode i = w := by
  unfold encodeChecked; split <;> simp_all

theorem encodeChecked_error {i : Instr} {e : EncodingError} (h : encodeChecked i = .error e) :
    i.wellFormed = false ∧ e = .operandOutOfRange := by
  unfold encodeChecked at h
  split at h
  · cases h
  · cases h; simp_all

end Sys2Proof.Machine
end

