-- ==== Sys2Proof/Laws/Memory.lean ====
section
/-! SUPPORT. Data memory: read after write, and the canonical form every write keeps (20_memory.md R44, R45, R53; log 1). -/

namespace Sys2Proof.Machine

@[simp] theorem Memory.read_nil (a : Nat) : Memory.read [] a = unlistedWord := rfl

theorem Memory.read_cons (c : Nat × Word) (m : Memory) (a : Nat) :
    Memory.read (c :: m) a = if c.1 = a then c.2 else Memory.read m a := rfl

theorem Memory.read_of_not_listed (m : Memory) (a : Nat) (h : ∀ c ∈ m, c.1 ≠ a) : m.read a = unlistedWord := by
  induction m with
  | nil => rfl
  | cons c m ih =>
    rw [Memory.read_cons, if_neg (h c (by simp))]
    exact ih fun d hd => h d (by simp [hd])

theorem Memory.read_of_mem (m : Memory) (hm : m.wf) (c : Nat × Word) (hc : c ∈ m) : m.read c.1 = c.2 := by
  induction m with
  | nil => cases hc
  | cons d m ih =>
    obtain ⟨hp, hn⟩ := hm
    rw [List.pairwise_cons] at hp
    rcases List.mem_cons.1 hc with rfl | hc'
    · rw [Memory.read_cons, if_pos rfl]
    · rw [Memory.read_cons, if_neg (Nat.ne_of_lt (hp.1 c hc'))]
      exact ih ⟨hp.2, fun e he => hn e (by simp [he])⟩ hc'

theorem Memory.mem_cell (a : Nat) (v : Word) (c : Nat × Word) : c ∈ Memory.cell a v ↔ v ≠ unlistedWord ∧ c = (a, v) := by
  unfold Memory.cell; split <;> simp_all

/-- Which cells a write leaves: the written one, and every other cell as it was. -/
theorem Memory.mem_write (m : Memory) (hm : m.wf) (a : Nat) (v : Word) (c : Nat × Word) :
    c ∈ m.write a v ↔ (v ≠ unlistedWord ∧ c = (a, v)) ∨ (c ∈ m ∧ c.1 ≠ a) := by
  induction m with
  | nil => simp [Memory.write, Memory.mem_cell]
  | cons d m ih =>
    obtain ⟨hp, hn⟩ := hm
    rw [List.pairwise_cons] at hp
    have ih' := ih ⟨hp.2, fun e he => hn e (by simp [he])⟩
    unfold Memory.write
    split
    · rename_i hlt
      have hne : ∀ e ∈ d :: m, e.1 ≠ a := by
        intro e he
        rcases List.mem_cons.1 he with rfl | he'
        · exact Nat.ne_of_gt hlt
        · exact Nat.ne_of_gt (Nat.lt_trans hlt (hp.1 e he'))
      rw [List.mem_append, Memory.mem_cell]
      constructor
      · rintro (h | h)
        · exact .inl h
        · exact .inr ⟨h, hne c h⟩
      · rintro (h | h)
        · exact .inl h
        · exact .inr h.1
    · split
      · rename_i heq
        have hne : ∀ e ∈ m, e.1 ≠ a := fun e he => heq ▸ Nat.ne_of_gt (hp.1 e he)
        rw [List.mem_append, Memory.mem_cell, List.mem_cons]
        constructor
        · rintro (h | h)
          · exact .inl h
          · exact .inr ⟨.inr h, hne c h⟩
        · rintro (h | ⟨rfl | h, h'⟩)
          · exact .inl h
          · exact absurd heq.symm h'
          · exact .inr h
      · rename_i hne
        rw [List.mem_cons, ih', List.mem_cons]
        constructor
        · rintro (rfl | h | ⟨h, h'⟩)
          · exact .inr ⟨.inl rfl, fun h => hne h.symm⟩
          · exact .inl h
          · exact .inr ⟨.inr h, h'⟩
        · rintro (h | ⟨rfl | h, h'⟩)
          · exact .inr (.inl h)
          · exact .inl rfl
          · exact .inr (.inr ⟨h, h'⟩)

/-- A write keeps the canonical form. -/
theorem Memory.write_wf (m : Memory) (hm : m.wf) (a : Nat) (v : Word) : (m.write a v).wf := by
  induction m with
  | nil => simp only [Memory.write, Memory.cell]; split <;> simp_all [Memory.wf]
  | cons d m ih =>
    refine ⟨?_, ?_⟩
    · obtain ⟨hp, hn⟩ := hm
      rw [List.pairwise_cons] at hp
      have hm' : Memory.wf m := ⟨hp.2, fun e he => hn e (by simp [he])⟩
      unfold Memory.write
      split
      · rename_i hlt
        unfold Memory.cell
        split
        · exact List.pairwise_cons.2 hp
        · refine List.pairwise_cons.2 ⟨fun e he => ?_, List.pairwise_cons.2 hp⟩
          rcases List.mem_cons.1 he with rfl | he'
          · exact hlt
          · exact Nat.lt_trans hlt (hp.1 e he')
      · rename_i hge
        split
        · rename_i heq
          unfold Memory.cell
          split
          · exact hp.2
          · exact List.pairwise_cons.2 ⟨fun e he => heq ▸ hp.1 e he, hp.2⟩
        · rename_i hne
          refine List.pairwise_cons.2 ⟨fun e he => ?_, (ih hm').1⟩
          rcases (Memory.mem_write m hm' a v e).1 he with ⟨-, rfl⟩ | ⟨he', -⟩
          · show d.1 < a
            omega
          · exact hp.1 e he'
    · intro c hc
      rcases (Memory.mem_write (d :: m) hm a v c).1 hc with ⟨hv, rfl⟩ | ⟨hc', -⟩
      · exact hv
      · exact hm.2 c hc'

/-- A read of the written address gives the written word (R53). -/
theorem Memory.read_write_same (m : Memory) (a : Nat) (v : Word) (hm : m.wf) : (m.write a v).read a = v := by
  by_cases hv : v = unlistedWord
  · rw [hv]
    refine Memory.read_of_not_listed _ _ fun c hc => ?_
    rcases (Memory.mem_write m hm a unlistedWord c).1 hc with ⟨h, -⟩ | ⟨-, h⟩
    · exact absurd rfl h
    · exact h
  · exact Memory.read_of_mem _ (Memory.write_wf m hm a v) (a, v) ((Memory.mem_write m hm a v _).2 (.inl ⟨hv, rfl⟩))

/-- A write changes exactly one word: every other address reads as before (R45). -/
theorem Memory.read_write_other (m : Memory) (a b : Nat) (v : Word) (h : b ≠ a) : (m.write a v).read b = m.read b := by
  have cellRead : ∀ rest : Memory, Memory.read (Memory.cell a v ++ rest) b = rest.read b := by
    intro rest
    unfold Memory.cell
    split
    · rfl
    · exact if_neg (Ne.symm h)
  induction m with
  | nil => simpa [Memory.write] using cellRead []
  | cons d m ih =>
    unfold Memory.write
    split
    · exact cellRead _
    · split
      · rename_i heq
        rw [cellRead, Memory.read_cons, if_neg (fun hd => h (by rw [← hd, heq]))]
      · rw [Memory.read_cons, ih, Memory.read_cons]

/-- A write lists no address but its own that was not listed before. -/
theorem Memory.write_addresses (m : Memory) (hm : m.wf) (a bound : Nat) (v : Word) (ha : a < bound)
    (h : ∀ c ∈ m, c.1 < bound) : ∀ c ∈ m.write a v, c.1 < bound := by
  intro c hc
  rcases (Memory.mem_write m hm a v c).1 hc with ⟨-, rfl⟩ | ⟨hc', -⟩
  · exact ha
  · exact h c hc'

end Sys2Proof.Machine
end

