-- ==== Sys2Proof/Laws/State.lean ====
section
/-! SUPPORT. One lemma per field per named update of State, true by `rfl` (10_state.md). -/

namespace Sys2Proof.Machine

/-! ### The two registers (R10) -/

@[simp] theorem setReg_r1 (s : State) (v : Word) : s.setReg .r1 v = { s with r1 := v } := rfl

@[simp] theorem setReg_r2 (s : State) (v : Word) : s.setReg .r2 v = { s with r2 := v } := rfl

@[simp] theorem getReg_r1 (s : State) : s.getReg .r1 = s.r1 := rfl

@[simp] theorem getReg_r2 (s : State) : s.getReg .r2 = s.r2 := rfl

@[simp] theorem getReg_setReg_same (s : State) (r : Reg) (v : Word) : (s.setReg r v).getReg r = v := by cases r <;> rfl

theorem getReg_setReg_other (s : State) (r q : Reg) (v : Word) (h : q ≠ r) : (s.setReg r v).getReg q = s.getReg q := by
  cases r <;> cases q <;> first | rfl | exact absurd rfl h

@[simp] theorem setReg_cfg (s : State) (r : Reg) (v : Word) : (s.setReg r v).cfg = s.cfg := by cases r <;> rfl

@[simp] theorem setReg_pc (s : State) (r : Reg) (v : Word) : (s.setReg r v).pc = s.pc := by cases r <;> rfl

@[simp] theorem setReg_sp (s : State) (r : Reg) (v : Word) : (s.setReg r v).sp = s.sp := by cases r <;> rfl

@[simp] theorem setReg_aluL (s : State) (r : Reg) (v : Word) : (s.setReg r v).aluL = s.aluL := by cases r <;> rfl

@[simp] theorem setReg_aluR (s : State) (r : Reg) (v : Word) : (s.setReg r v).aluR = s.aluR := by cases r <;> rfl

@[simp] theorem setReg_aluOut (s : State) (r : Reg) (v : Word) : (s.setReg r v).aluOut = s.aluOut := by cases r <;> rfl

@[simp] theorem setReg_runState (s : State) (r : Reg) (v : Word) : (s.setReg r v).runState = s.runState := by cases r <;> rfl

@[simp] theorem setReg_tick (s : State) (r : Reg) (v : Word) : (s.setReg r v).tick = s.tick := by cases r <;> rfl

@[simp] theorem setReg_irqFlag (s : State) (r : Reg) (v : Word) : (s.setReg r v).irqFlag = s.irqFlag := by cases r <;> rfl

@[simp] theorem setReg_inQueue (s : State) (r : Reg) (v : Word) : (s.setReg r v).inQueue = s.inQueue := by cases r <;> rfl

@[simp] theorem setReg_outBuf (s : State) (r : Reg) (v : Word) : (s.setReg r v).outBuf = s.outBuf := by cases r <;> rfl

@[simp] theorem setReg_dmem (s : State) (r : Reg) (v : Word) : (s.setReg r v).dmem = s.dmem := by cases r <;> rfl

@[simp] theorem setReg_imem (s : State) (r : Reg) (v : Word) : (s.setReg r v).imem = s.imem := by cases r <;> rfl

@[simp] theorem setReg_entry (s : State) (r : Reg) (v : Word) : (s.setReg r v).entry = s.entry := by cases r <;> rfl

@[simp] theorem setReg_iterations (s : State) (r : Reg) (v : Word) : (s.setReg r v).iterations = s.iterations := by cases r <;> rfl

@[simp] theorem setReg_openHandlers (s : State) (r : Reg) (v : Word) : (s.setReg r v).openHandlers = s.openHandlers := by cases r <;> rfl

/-! ### Taking a fault (R173): the run state changes and nothing else -/

@[simp] theorem takeFault_cfg (s : State) (fault : ExecFault) (pc : Word) (word : Option InsnWord) (inEntry : Bool) :
    (s.takeFault fault pc word inEntry).cfg = s.cfg := rfl

@[simp] theorem takeFault_r1 (s : State) (fault : ExecFault) (pc : Word) (word : Option InsnWord) (inEntry : Bool) :
    (s.takeFault fault pc word inEntry).r1 = s.r1 := rfl

@[simp] theorem takeFault_r2 (s : State) (fault : ExecFault) (pc : Word) (word : Option InsnWord) (inEntry : Bool) :
    (s.takeFault fault pc word inEntry).r2 = s.r2 := rfl

@[simp] theorem takeFault_pc (s : State) (fault : ExecFault) (pc : Word) (word : Option InsnWord) (inEntry : Bool) :
    (s.takeFault fault pc word inEntry).pc = s.pc := rfl

@[simp] theorem takeFault_sp (s : State) (fault : ExecFault) (pc : Word) (word : Option InsnWord) (inEntry : Bool) :
    (s.takeFault fault pc word inEntry).sp = s.sp := rfl

@[simp] theorem takeFault_aluL (s : State) (fault : ExecFault) (pc : Word) (word : Option InsnWord) (inEntry : Bool) :
    (s.takeFault fault pc word inEntry).aluL = s.aluL := rfl

@[simp] theorem takeFault_aluR (s : State) (fault : ExecFault) (pc : Word) (word : Option InsnWord) (inEntry : Bool) :
    (s.takeFault fault pc word inEntry).aluR = s.aluR := rfl

@[simp] theorem takeFault_aluOut (s : State) (fault : ExecFault) (pc : Word) (word : Option InsnWord) (inEntry : Bool) :
    (s.takeFault fault pc word inEntry).aluOut = s.aluOut := rfl

@[simp] theorem takeFault_runState (s : State) (fault : ExecFault) (pc : Word) (word : Option InsnWord) (inEntry : Bool) :
    (s.takeFault fault pc word inEntry).runState = .faulted (FaultRecord.of fault pc word s.tick inEntry) := rfl

@[simp] theorem takeFault_tick (s : State) (fault : ExecFault) (pc : Word) (word : Option InsnWord) (inEntry : Bool) :
    (s.takeFault fault pc word inEntry).tick = s.tick := rfl

@[simp] theorem takeFault_irqFlag (s : State) (fault : ExecFault) (pc : Word) (word : Option InsnWord) (inEntry : Bool) :
    (s.takeFault fault pc word inEntry).irqFlag = s.irqFlag := rfl

@[simp] theorem takeFault_inQueue (s : State) (fault : ExecFault) (pc : Word) (word : Option InsnWord) (inEntry : Bool) :
    (s.takeFault fault pc word inEntry).inQueue = s.inQueue := rfl

@[simp] theorem takeFault_outBuf (s : State) (fault : ExecFault) (pc : Word) (word : Option InsnWord) (inEntry : Bool) :
    (s.takeFault fault pc word inEntry).outBuf = s.outBuf := rfl

@[simp] theorem takeFault_dmem (s : State) (fault : ExecFault) (pc : Word) (word : Option InsnWord) (inEntry : Bool) :
    (s.takeFault fault pc word inEntry).dmem = s.dmem := rfl

@[simp] theorem takeFault_imem (s : State) (fault : ExecFault) (pc : Word) (word : Option InsnWord) (inEntry : Bool) :
    (s.takeFault fault pc word inEntry).imem = s.imem := rfl

@[simp] theorem takeFault_entry (s : State) (fault : ExecFault) (pc : Word) (word : Option InsnWord) (inEntry : Bool) :
    (s.takeFault fault pc word inEntry).entry = s.entry := rfl

@[simp] theorem takeFault_iterations (s : State) (fault : ExecFault) (pc : Word) (word : Option InsnWord) (inEntry : Bool) :
    (s.takeFault fault pc word inEntry).iterations = s.iterations := rfl

@[simp] theorem takeFault_openHandlers (s : State) (fault : ExecFault) (pc : Word) (word : Option InsnWord) (inEntry : Bool) :
    (s.takeFault fault pc word inEntry).openHandlers = s.openHandlers := rfl

/-! ### Counting an iteration (R107) -/

@[simp] theorem countIteration_cfg (s : State) : (countIteration s).cfg = s.cfg := rfl

@[simp] theorem countIteration_r1 (s : State) : (countIteration s).r1 = s.r1 := rfl

@[simp] theorem countIteration_r2 (s : State) : (countIteration s).r2 = s.r2 := rfl

@[simp] theorem countIteration_pc (s : State) : (countIteration s).pc = s.pc := rfl

@[simp] theorem countIteration_sp (s : State) : (countIteration s).sp = s.sp := rfl

@[simp] theorem countIteration_aluL (s : State) : (countIteration s).aluL = s.aluL := rfl

@[simp] theorem countIteration_aluR (s : State) : (countIteration s).aluR = s.aluR := rfl

@[simp] theorem countIteration_aluOut (s : State) : (countIteration s).aluOut = s.aluOut := rfl

@[simp] theorem countIteration_runState (s : State) : (countIteration s).runState = s.runState := rfl

@[simp] theorem countIteration_tick (s : State) : (countIteration s).tick = s.tick := rfl

@[simp] theorem countIteration_irqFlag (s : State) : (countIteration s).irqFlag = s.irqFlag := rfl

@[simp] theorem countIteration_inQueue (s : State) : (countIteration s).inQueue = s.inQueue := rfl

@[simp] theorem countIteration_outBuf (s : State) : (countIteration s).outBuf = s.outBuf := rfl

@[simp] theorem countIteration_dmem (s : State) : (countIteration s).dmem = s.dmem := rfl

@[simp] theorem countIteration_imem (s : State) : (countIteration s).imem = s.imem := rfl

@[simp] theorem countIteration_entry (s : State) : (countIteration s).entry = s.entry := rfl

@[simp] theorem countIteration_iterations (s : State) : (countIteration s).iterations = s.iterations + 1 := rfl

@[simp] theorem countIteration_openHandlers (s : State) : (countIteration s).openHandlers = s.openHandlers := rfl

/-! ### The tick (R105) and the scheduling step (R107) -/

@[simp] theorem advanceTick_cfg (s : State) : (advanceTick s).cfg = s.cfg := by unfold advanceTick; split <;> rfl

@[simp] theorem advanceTick_r1 (s : State) : (advanceTick s).r1 = s.r1 := by unfold advanceTick; split <;> rfl

@[simp] theorem advanceTick_r2 (s : State) : (advanceTick s).r2 = s.r2 := by unfold advanceTick; split <;> rfl

@[simp] theorem advanceTick_pc (s : State) : (advanceTick s).pc = s.pc := by unfold advanceTick; split <;> rfl

@[simp] theorem advanceTick_sp (s : State) : (advanceTick s).sp = s.sp := by unfold advanceTick; split <;> rfl

@[simp] theorem advanceTick_aluL (s : State) : (advanceTick s).aluL = s.aluL := by unfold advanceTick; split <;> rfl

@[simp] theorem advanceTick_aluR (s : State) : (advanceTick s).aluR = s.aluR := by unfold advanceTick; split <;> rfl

@[simp] theorem advanceTick_aluOut (s : State) : (advanceTick s).aluOut = s.aluOut := by unfold advanceTick; split <;> rfl

@[simp] theorem advanceTick_runState (s : State) : (advanceTick s).runState = s.runState := by unfold advanceTick; split <;> rfl

@[simp] theorem advanceTick_irqFlag (s : State) : (advanceTick s).irqFlag = s.irqFlag := by unfold advanceTick; split <;> rfl

@[simp] theorem advanceTick_inQueue (s : State) : (advanceTick s).inQueue = s.inQueue := by unfold advanceTick; split <;> rfl

@[simp] theorem advanceTick_outBuf (s : State) : (advanceTick s).outBuf = s.outBuf := by unfold advanceTick; split <;> rfl

@[simp] theorem advanceTick_dmem (s : State) : (advanceTick s).dmem = s.dmem := by unfold advanceTick; split <;> rfl

@[simp] theorem advanceTick_imem (s : State) : (advanceTick s).imem = s.imem := by unfold advanceTick; split <;> rfl

@[simp] theorem advanceTick_entry (s : State) : (advanceTick s).entry = s.entry := by unfold advanceTick; split <;> rfl

@[simp] theorem advanceTick_iterations (s : State) : (advanceTick s).iterations = s.iterations := by unfold advanceTick; split <;> rfl

@[simp] theorem advanceTick_openHandlers (s : State) : (advanceTick s).openHandlers = s.openHandlers := by unfold advanceTick; split <;> rfl

theorem advanceTick_running (s : State) (h : s.runState = .running) : advanceTick s = { s with tick := s.tick + 1 } := if_pos h

theorem advanceTick_stopped (s : State) (h : s.runState ≠ .running) : advanceTick s = s := if_neg h

@[simp] theorem schedule_cfg (s : State) : (schedule s).cfg = s.cfg := by unfold schedule; split <;> rfl

@[simp] theorem schedule_r1 (s : State) : (schedule s).r1 = s.r1 := by unfold schedule; split <;> rfl

@[simp] theorem schedule_r2 (s : State) : (schedule s).r2 = s.r2 := by unfold schedule; split <;> rfl

@[simp] theorem schedule_pc (s : State) : (schedule s).pc = s.pc := by unfold schedule; split <;> rfl

@[simp] theorem schedule_sp (s : State) : (schedule s).sp = s.sp := by unfold schedule; split <;> rfl

@[simp] theorem schedule_aluL (s : State) : (schedule s).aluL = s.aluL := by unfold schedule; split <;> rfl

@[simp] theorem schedule_aluR (s : State) : (schedule s).aluR = s.aluR := by unfold schedule; split <;> rfl

@[simp] theorem schedule_aluOut (s : State) : (schedule s).aluOut = s.aluOut := by unfold schedule; split <;> rfl

@[simp] theorem schedule_runState (s : State) : (schedule s).runState = s.runState := by unfold schedule; split <;> rfl

@[simp] theorem schedule_tick (s : State) : (schedule s).tick = s.tick := by unfold schedule; split <;> rfl

@[simp] theorem schedule_inQueue (s : State) : (schedule s).inQueue = s.inQueue := by unfold schedule; split <;> rfl

@[simp] theorem schedule_outBuf (s : State) : (schedule s).outBuf = s.outBuf := by unfold schedule; split <;> rfl

@[simp] theorem schedule_dmem (s : State) : (schedule s).dmem = s.dmem := by unfold schedule; split <;> rfl

@[simp] theorem schedule_imem (s : State) : (schedule s).imem = s.imem := by unfold schedule; split <;> rfl

@[simp] theorem schedule_entry (s : State) : (schedule s).entry = s.entry := by unfold schedule; split <;> rfl

@[simp] theorem schedule_iterations (s : State) : (schedule s).iterations = s.iterations := by unfold schedule; split <;> rfl

@[simp] theorem schedule_openHandlers (s : State) : (schedule s).openHandlers = s.openHandlers := by unfold schedule; split <;> rfl

theorem schedule_irqFlag (s : State) : (schedule s).irqFlag = (s.eventDue || s.irqFlag) := by
  unfold schedule; split <;> simp_all

end Sys2Proof.Machine
end

