-- ==== Sys2Proof/Laws/Ops.lean ====
section
/-! SUPPORT. One equation per shared operation: everything it can do, said once (20_memory.md, 41_arithmetic.md,
60_exceptions.md). Later proofs cite these and unfold no operation. -/

namespace Sys2Proof.Machine

/-! ### Sequencing (R51, R173) -/

theorem andThen_done {α β : Type} {m : Micro α} {f : α → Micro β} {s t : State} {a : α} (h : m s = .done a t) :
    m.andThen f s = f a t := by
  simp only [Micro.andThen, h]

theorem andThen_raised {α β : Type} {m : Micro α} {f : α → Micro β} {s t : State} {e : ExecFault}
    (h : m s = .raised e t) : m.andThen f s = .raised e t := by
  simp only [Micro.andThen, h]

theorem current_eq (s : State) : current s = .done s s := rfl

theorem setPc_eq (a : Word) (s : State) : setPc a s = .done () { s with pc := a } := rfl

theorem latchRegister_eq (r : Reg) (v : Word) (s : State) : latchRegister r v s = .done () (s.setReg r v) := rfl

theorem clearFlag_eq (s : State) : clearFlag s = .done () { s with irqFlag := false } := rfl

theorem onNext_next (t : State) (f : State → Host.Outcome State Fault Refusal) : onNext (.next t) f = f t := rfl

/-- What `onNext` answers a next state from. -/
theorem onNext_eq_next {o : Host.Outcome State Fault Refusal} {f : State → Host.Outcome State Fault Refusal} {u : State}
    (h : onNext o f = .next u) : ∃ t, o = .next t ∧ f t = .next u := by
  cases o with
  | next t => exact ⟨t, rfl, h⟩
  | fault r => cases h
  | refused r => cases h

/-! ### Immediates (R79) -/

/-- An immediate widened to a word is itself. -/
theorem uint_zextW (n : Nat) (h : n < 1024) : uint (zextW n) = n := by
  simp only [BitVec.toNat_ofNat]; omega

/-- "an immediate is never negative". -/
theorem sint_zextW (n : Nat) (h : n < 1024) : sint (zextW n) = n := by
  show (BitVec.ofNat 32 n).toInt = n
  rw [BitVec.toInt_ofNat']
  simp [Int.bmod]; omega

/-- The data address of an absolute form is its immediate (R46). -/
theorem address_absolute (s : State) (n : Nat) (h : n < 1024) : Addressing.address s (.absolute n) = n :=
  uint_zextW n h

/-! ### Data memory and the stack -/

theorem memRead_eq (a : Nat) (s : State) :
    memRead a s = if s.cfg.memSize ≤ a then .raised (.dataAddressOutOfRange (BitVec.ofNat 32 a)) s
      else .done (s.dmem.read a) s := rfl

theorem memWrite_eq (a : Nat) (v : Word) (s : State) :
    memWrite a v s = if s.cfg.memSize ≤ a then .raised (.dataAddressOutOfRange (BitVec.ofNat 32 a)) s
      else .done () { s with dmem := s.dmem.write a v } := rfl

/-- Everything `Push` can do (R47). -/
theorem push_eq (v : Word) (s : State) :
    push v s = if s.sp = 0 then .raised .stackOverflow s
      else if s.cfg.memSize ≤ s.sp then .raised (.dataAddressOutOfRange (BitVec.ofNat 32 s.sp)) s
      else .done () { s with dmem := s.dmem.write s.sp v, sp := s.sp - 1 } := by
  rw [push, andThen_done (current_eq s)]
  split
  · rfl
  · simp only [Micro.andThen, memWrite_eq, Addressing.address, setSp]
    by_cases h : s.cfg.memSize ≤ s.sp
    · rw [if_pos h, if_pos h]
    · rw [if_neg h, if_neg h]

/-- Everything `Pop` can do (R48). -/
theorem pop_eq (s : State) :
    pop s = if s.sp = s.cfg.memSize - 1 then .raised .stackUnderflow s
      else if s.cfg.memSize ≤ s.sp + 1 then
        .raised (.dataAddressOutOfRange (BitVec.ofNat 32 (s.sp + 1))) { s with sp := s.sp + 1 }
      else .done (s.dmem.read (s.sp + 1)) { s with sp := s.sp + 1 } := by
  rw [pop, andThen_done (current_eq s)]
  split <;> rfl

/-- `Push` with room on the stack (R47). -/
theorem push_room (v : Word) (s : State) (h0 : s.sp ≠ 0) (h : s.sp < s.cfg.memSize) :
    push v s = .done () { s with dmem := s.dmem.write s.sp v, sp := s.sp - 1 } := by
  rw [push_eq, if_neg h0, if_neg (by omega)]

/-- `Pop` of a stack that is not empty (R48). -/
theorem pop_some (s : State) (h : s.sp < s.cfg.memSize - 1) :
    pop s = .done (s.dmem.read (s.sp + 1)) { s with sp := s.sp + 1 } := by
  rw [pop_eq, if_neg (by omega), if_neg (by omega)]

/-- What a `Pop` that answers has done. -/
theorem pop_done {s t : State} {v : Word} (h : pop s = .done v t) :
    v = s.dmem.read (s.sp + 1) ∧ t = { s with sp := s.sp + 1 } ∧ s.sp + 1 < s.cfg.memSize := by
  rw [pop_eq] at h
  split at h
  · cases h
  · split at h
    · cases h
    · cases h; exact ⟨rfl, rfl, by omega⟩

/-- What a `Pop` that raises has done: nothing at the empty stack (R48). -/
theorem pop_raised {s t : State} {f : ExecFault} (h : pop s = .raised f t) :
    (f = .stackUnderflow ∧ t = s ∧ s.sp = s.cfg.memSize - 1) ∨ (t = { s with sp := s.sp + 1 } ∧ s.cfg.memSize ≤ s.sp + 1) := by
  rw [pop_eq] at h
  split at h
  · cases h; exact .inl ⟨rfl, rfl, by assumption⟩
  · split at h
    · cases h; exact .inr ⟨rfl, by assumption⟩
    · cases h

/-! ### The ALU -/

theorem aluExec_eq (op : AluOp) (s : State) :
    aluExec op s = match aluResult op s.aluL s.aluR with
      | some v => .done () { s with aluOut := v }
      | none => .raised .divisionByZero s := rfl

/-- The ALU's `+0` leaves a word as it is. -/
theorem wrap_add_zero (v : Word) : wrap (sint v + sint 0#32) = v := by
  simp [BitVec.ofInt_toInt]

/-- The state an ALU pass of a word leaves (R50). -/
abbrev State.passed (s : State) (v : Word) : State := { s with aluL := v, aluR := 0#32, aluOut := v }

/-- "alu_out = v, cannot fault" (R50). -/
theorem throughAlu_eq (source : LatchSource) (s : State) :
    throughAlu source s = .done (source.value s) (s.passed (source.value s)) := by
  have h := wrap_add_zero (source.value s)
  simp only [throughAlu, Micro.andThen, latchOperands, aluExec, aluResult, aluOutput]
  show MicroResult.done (wrap (sint (source.value s) + sint 0#32)) { s with
    aluL := source.value s, aluR := 0#32, aluOut := wrap (sint (source.value s) + sint 0#32) } = _
  rw [h]

/-- `PushViaAlu` is `Push` in the state its ALU pass leaves (R50). -/
theorem pushViaAlu_eq (source : LatchSource) (s : State) :
    pushViaAlu source s = push (source.value s) (s.passed (source.value s)) := by
  rw [pushViaAlu, andThen_done (throughAlu_eq source s)]

/-- `PushViaAlu` with room on the stack. -/
theorem pushViaAlu_room (source : LatchSource) (s : State) (h0 : s.sp ≠ 0) (h : s.sp < s.cfg.memSize) :
    pushViaAlu source s =
      .done () { s.passed (source.value s) with dmem := s.dmem.write s.sp (source.value s), sp := s.sp - 1 } := by
  rw [pushViaAlu_eq]
  exact push_room _ (s.passed _) h0 h

/-! ### Execution of an instruction's body (R100, R173) -/

theorem execute_done {body : Micro Unit} {s t : State} (h : body s = .done () t) : execute body s = .next t := by
  simp only [execute, h]

theorem execute_raised {body : Micro Unit} {s t : State} {f : ExecFault} (h : body s = .raised f t) :
    execute body s = .next (t.takeFault f s.pc s.currentWord false) := by
  simp only [execute, h]

/-- Everything `execute` can answer. -/
theorem execute_cases {body : Micro Unit} {s u : State} (h : execute body s = .next u) :
    body s = .done () u ∨ ∃ f t, body s = .raised f t ∧ u = t.takeFault f s.pc s.currentWord false := by
  unfold execute at h
  split at h
  · rename_i heq; cases h; exact .inl heq
  · rename_i f t heq; cases h; exact .inr ⟨f, t, heq, rfl⟩

/-- `execute` always answers a next state: a raise is a state (R173), never a stop. -/
theorem execute_next (body : Micro Unit) (s : State) : ∃ t, execute body s = .next t := by
  unfold execute; split <;> exact ⟨_, rfl⟩

/-! ### The bodies of the instructions -/

/-- The state an arithmetic instruction leaves: the destination, the latches and the pc (R126). -/
abbrev State.computed (s : State) (d : Reg) (l r v : Word) : State :=
  { s.setReg d v with aluL := l, aluR := r, aluOut := v, pc := s.pc + 1#32 }

/-- The arithmetic register form (R116). -/
theorem arithReg_eq (op : AluOp) (d : Reg) (s : State) :
    arithReg op d s = match aluResult op s.r1 s.r2 with
      | some v => .done () (s.computed d s.r1 s.r2 v)
      | none => .raised .divisionByZero { s with aluL := s.r1, aluR := s.r2 } := by
  simp only [arithReg, Micro.andThen, latchOperands, aluExec_eq, LatchSource.value, getReg_r1, getReg_r2]
  cases aluResult op s.r1 s.r2 with
  | none => rfl
  | some v => cases d <;> rfl

/-- The arithmetic immediate form (R119). -/
theorem arithImm_eq (op : AluOp) (d : Reg) (n : Nat) (s : State) :
    arithImm op d n s = match aluResult op (s.getReg d) (zextW n) with
      | some v => .done () (s.computed d (s.getReg d) (zextW n) v)
      | none => .raised .divisionByZero { s with aluL := s.getReg d, aluR := zextW n } := by
  simp only [arithImm, Micro.andThen, latchOperands, aluExec_eq, LatchSource.value]
  cases aluResult op (s.getReg d) (zextW n) with
  | none => rfl
  | some v => cases d <;> rfl

/-- LD, both forms (R130, R131). -/
theorem load_eq (r : Reg) (a : Addressing) (s : State) :
    load r a s = if s.cfg.memSize ≤ a.address s then
        .raised (.dataAddressOutOfRange (BitVec.ofNat 32 (a.address s))) s
      else .done () { s.setReg r (s.dmem.read (a.address s)) with pc := s.pc + 1#32 } := by
  rw [load, andThen_done (current_eq s)]
  simp only [Micro.andThen, memRead_eq]
  split <;> rename_i h <;> split at h <;> cases h <;> simp_all [latchRegister, pcNext]

/-- A data address does not depend on the latches. -/
theorem address_passed (a : Addressing) (s : State) (v : Word) : a.address (s.passed v) = a.address s := by
  cases a with
  | absolute n => rfl
  | registerIndirect q => cases q <;> rfl
  | stackPush => rfl
  | stackPop => rfl

/-- ST, both forms (R132, R133). -/
theorem store_eq (r : Reg) (a : Addressing) (s : State) :
    store r a s = if s.cfg.memSize ≤ a.address s then
        .raised (.dataAddressOutOfRange (BitVec.ofNat 32 (a.address s))) (s.passed (s.getReg r))
      else .done () { s.passed (s.getReg r) with
        dmem := s.dmem.write (a.address s) (s.getReg r), pc := s.pc + 1#32 } := by
  rw [store, andThen_done (throughAlu_eq _ s), andThen_done (current_eq _)]
  simp only [Micro.andThen, memWrite_eq, address_passed, LatchSource.value]
  by_cases h : s.cfg.memSize ≤ a.address s
  · rw [if_pos h, if_pos h]
  · rw [if_neg h, if_neg h]; rfl

/-- OUT (R140). -/
theorem output_eq (r : Reg) (s : State) :
    output r s = .done () { s.passed (s.getReg r) with
      outBuf := s.outBuf ++ [sint (s.getReg r)], pc := s.pc + 1#32 } := by
  rw [output, andThen_done (throughAlu_eq _ s)]; rfl

/-- JE (R146). -/
theorem jumpIfZero_eq (r : Reg) (t : Nat) (s : State) :
    jumpIfZero r t s = .done () { s with pc := if s.getReg r = 0#32 then zextW t else s.pc + 1#32 } := by
  rw [jumpIfZero, andThen_done (current_eq s)]
  by_cases h : s.getReg r = 0#32 <;> simp [zeroFlag, h, setPc, pcNext]

/-- CALL (R147). -/
theorem callTo_eq (t : Nat) (s : State) :
    callTo t s = if s.sp = 0 then .raised .stackOverflow (s.passed s.pc)
      else if s.cfg.memSize ≤ s.sp then
        .raised (.dataAddressOutOfRange (BitVec.ofNat 32 s.sp)) (s.passed s.pc)
      else .done () { s.passed s.pc with dmem := s.dmem.write s.sp s.pc, sp := s.sp - 1, pc := zextW t } := by
  rw [callTo, andThen_done (current_eq s)]
  simp only [Micro.andThen, pushViaAlu_eq, push_eq, LatchSource.value]
  by_cases h : s.sp = 0
  · simp [State.passed, h]
  · by_cases h' : s.cfg.memSize ≤ s.sp <;> simp [State.passed, h, h', setPc]

/-- RET (R148). -/
theorem returnFromCall_eq (s : State) :
    returnFromCall s = if s.sp = s.cfg.memSize - 1 then .raised .stackUnderflow s
      else if s.cfg.memSize ≤ s.sp + 1 then
        .raised (.dataAddressOutOfRange (BitVec.ofNat 32 (s.sp + 1))) { s with sp := s.sp + 1 }
      else .done () { s with sp := s.sp + 1, pc := s.dmem.read (s.sp + 1) } := by
  simp only [returnFromCall, Micro.andThen, pop_eq]
  by_cases h : s.sp = s.cfg.memSize - 1
  · simp only [h, if_true]
  · by_cases h' : s.cfg.memSize ≤ s.sp + 1
    · simp only [h, h', if_true, if_false]
    · simp only [h, h', if_false, setPc]

/-! ### Interrupt return, pop by pop (R160) -/

/-- RST with its four words on the stack (R160). -/
theorem interruptReturn_room (s : State) (h : s.sp + 4 ≤ s.cfg.memSize - 1) :
    interruptReturn s =
      .done () { s.passed (s.dmem.read (s.sp + 2)) with
        pc := s.dmem.read (s.sp + 2), r2 := s.dmem.read (s.sp + 3), r1 := s.dmem.read (s.sp + 4)
        sp := s.sp + 4, openHandlers := s.openHandlers - 1 } := by
  rw [interruptReturn, andThen_done (pop_some s (by omega)), andThen_done (pop_some _ (by simp; omega)),
    andThen_done (throughAlu_eq _ _), andThen_done (setPc_eq _ _), andThen_done (pop_some _ (by simp; omega)),
    andThen_done (latchRegister_eq _ _ _), andThen_done (pop_some _ (by simp; omega)), andThen_done (latchRegister_eq _ _ _)]
  rfl

/-- RST with no word on the stack: nothing changes (R160). -/
theorem interruptReturn_empty (s : State) (h : s.sp = s.cfg.memSize - 1) :
    interruptReturn s = .raised .stackUnderflow s := by
  rw [interruptReturn, andThen_raised (by rw [pop_eq, if_pos h])]

/-- RST with one word on the stack: the first pop keeps its effect (R160). -/
theorem interruptReturn_one (s : State) (h : s.sp + 1 = s.cfg.memSize - 1) :
    interruptReturn s = .raised .stackUnderflow { s with sp := s.sp + 1 } := by
  rw [interruptReturn, andThen_done (pop_some s (by omega)), andThen_raised (by rw [pop_eq, if_pos (by simpa using h)])]

/-- RST with two words on the stack: the pc has been restored (R160). -/
theorem interruptReturn_two (s : State) (h : s.sp + 2 = s.cfg.memSize - 1) :
    interruptReturn s =
      .raised .stackUnderflow { s.passed (s.dmem.read (s.sp + 2)) with pc := s.dmem.read (s.sp + 2), sp := s.sp + 2 } := by
  rw [interruptReturn, andThen_done (pop_some s (by omega)), andThen_done (pop_some _ (by simp; omega)),
    andThen_done (throughAlu_eq _ _), andThen_done (setPc_eq _ _),
    andThen_raised (by rw [pop_eq, if_pos (by simpa using h)])]
  rfl

/-- RST with three words on the stack: the pc and R2 have been restored (R160). -/
theorem interruptReturn_three (s : State) (h : s.sp + 3 = s.cfg.memSize - 1) :
    interruptReturn s =
      .raised .stackUnderflow { s.passed (s.dmem.read (s.sp + 2)) with
        pc := s.dmem.read (s.sp + 2), r2 := s.dmem.read (s.sp + 3), sp := s.sp + 3 } := by
  rw [interruptReturn, andThen_done (pop_some s (by omega)), andThen_done (pop_some _ (by simp; omega)),
    andThen_done (throughAlu_eq _ _), andThen_done (setPc_eq _ _), andThen_done (pop_some _ (by simp; omega)),
    andThen_done (latchRegister_eq _ _ _), andThen_raised (by rw [pop_eq, if_pos (by simpa using h)])]
  rfl

/-- With the pointer outside data memory, which no run reaches (R13), the first pop already raises. -/
theorem interruptReturn_outside (s : State) (h : s.cfg.memSize ≤ s.sp + 1) :
    (interruptReturn s = .raised .stackUnderflow s ∧ s.sp = s.cfg.memSize - 1) ∨
    interruptReturn s =
      .raised (.dataAddressOutOfRange (BitVec.ofNat 32 (s.sp + 1))) { s with sp := s.sp + 1 } := by
  by_cases h' : s.sp = s.cfg.memSize - 1
  · exact .inl ⟨interruptReturn_empty s h', h'⟩
  · exact .inr (by rw [interruptReturn, andThen_raised (by rw [pop_eq, if_neg h', if_pos h])])

/-- Everything RST can do: all four pops, or a raise at one of them (R160, R173). -/
theorem interruptReturn_cases (s : State) :
    (s.sp + 4 ≤ s.cfg.memSize - 1 ∧ interruptReturn s =
      .done () { s.passed (s.dmem.read (s.sp + 2)) with
        pc := s.dmem.read (s.sp + 2), r2 := s.dmem.read (s.sp + 3), r1 := s.dmem.read (s.sp + 4)
        sp := s.sp + 4, openHandlers := s.openHandlers - 1 }) ∨
    ∃ f p l r o q n, interruptReturn s = .raised f { s with pc := p, aluL := l, aluR := r, aluOut := o, r2 := q, sp := n } ∧
      (f = .stackUnderflow ∧ s.sp ≤ n ∧ n = s.cfg.memSize - 1 ∨ s.cfg.memSize ≤ s.sp ∧ n = s.sp + 1) := by
  by_cases h4 : s.sp + 4 ≤ s.cfg.memSize - 1
  · exact .inl ⟨h4, interruptReturn_room s h4⟩
  · refine .inr ?_
    by_cases h3 : s.sp + 3 = s.cfg.memSize - 1
    · exact ⟨_, _, _, _, _, _, _, interruptReturn_three s h3, .inl ⟨rfl, by simp, h3⟩⟩
    · by_cases h2 : s.sp + 2 = s.cfg.memSize - 1
      · exact ⟨_, _, _, _, _, _, _, interruptReturn_two s h2, .inl ⟨rfl, by simp, h2⟩⟩
      · by_cases h1 : s.sp + 1 = s.cfg.memSize - 1
        · exact ⟨_, _, _, _, _, _, _, interruptReturn_one s h1, .inl ⟨rfl, by simp, h1⟩⟩
        · rcases interruptReturn_outside s (by omega) with ⟨h, hs⟩ | h
          · exact ⟨_, _, _, _, _, _, _, h, .inl ⟨rfl, Nat.le_refl _, hs⟩⟩
          · by_cases h0 : s.sp = s.cfg.memSize - 1
            · exact ⟨_, _, _, _, _, _, _, interruptReturn_empty s h0, .inl ⟨rfl, Nat.le_refl _, h0⟩⟩
            · exact ⟨_, _, _, _, _, _, _, h, .inr ⟨by omega, rfl⟩⟩

/-! ### Interrupt entry (R178, R179, R187) -/

/-- The state steps (a) to (c) leave with room for the three words (R178, R179). -/
abbrev State.entered (s : State) : State :=
  { s.passed s.pc with
    irqFlag := false
    dmem := ((s.dmem.write s.sp s.r1).write (s.sp - 1) s.r2).write (s.sp - 2) s.pc
    sp := s.sp - 3, pc := 0#32 }

/-- Steps (a) to (c) with room for three words (R178, R179). -/
theorem entryFrame_room (s : State) (h3 : 3 ≤ s.sp) (h : s.sp < s.cfg.memSize) : entryFrame s = .done () s.entered := by
  rw [entryFrame, andThen_done (clearFlag_eq s), andThen_done (pushViaAlu_room _ _ (by simp; omega) (by simpa using h)),
    andThen_done (pushViaAlu_room _ _ (by simp; omega) (by simp; omega)), andThen_done (current_eq _),
    andThen_done (pushViaAlu_room _ _ (by simp; omega) (by simp; omega))]
  simp only [setPc, State.entered, LatchSource.value, State.getReg,
    show s.sp - 1 - 1 = s.sp - 2 from by omega, show s.sp - 2 - 1 = s.sp - 3 from by omega]

/-- A push of interrupt entry that raises leaves the flag cleared, the completed pushes, and all else (R187). -/
theorem entryFrame_overflow (s : State) (h3 : s.sp < 3) (h : s.sp < s.cfg.memSize) :
    ∃ l, entryFrame s = .raised .stackOverflow
      { s with
        irqFlag := false, aluL := l, aluR := 0#32, aluOut := l, sp := 0
        dmem := if s.sp = 0 then s.dmem else if s.sp = 1 then s.dmem.write 1 s.r1
          else (s.dmem.write 2 s.r1).write 1 s.r2 } := by
  rcases (by omega : s.sp = 0 ∨ s.sp = 1 ∨ s.sp = 2) with h0 | h1 | h2
  · refine ⟨s.r1, ?_⟩
    rw [entryFrame, andThen_done (clearFlag_eq s), andThen_raised (by rw [pushViaAlu_eq, push_eq, if_pos (by simpa using h0)])]
    simp [h0, State.passed, LatchSource.value]
  · refine ⟨s.r2, ?_⟩
    rw [entryFrame, andThen_done (clearFlag_eq s), andThen_done (pushViaAlu_room _ _ (by simp; omega) (by simpa using h)),
      andThen_raised (by rw [pushViaAlu_eq, push_eq, if_pos (by simp [h1])])]
    simp [h1, State.passed, LatchSource.value]
  · refine ⟨s.pc, ?_⟩
    rw [entryFrame, andThen_done (clearFlag_eq s), andThen_done (pushViaAlu_room _ _ (by simp; omega) (by simpa using h)),
      andThen_done (pushViaAlu_room _ _ (by simp; omega) (by simp; omega)), andThen_done (current_eq _),
      andThen_raised (by rw [pushViaAlu_eq, push_eq, if_pos (by simp [h2])])]
    simp [h2, State.passed, LatchSource.value]

/-- With the pointer outside data memory, which no run reaches (R13), the first push raises. -/
theorem entryFrame_outside (s : State) (h : s.cfg.memSize ≤ s.sp) :
    ∃ f, entryFrame s = .raised f { s with irqFlag := false, aluL := s.r1, aluR := 0#32, aluOut := s.r1 } := by
  by_cases h0 : s.sp = 0
  · exact ⟨_, by
      rw [entryFrame, andThen_done (clearFlag_eq s), andThen_raised (by rw [pushViaAlu_eq, push_eq, if_pos (by simpa using h0)])]
      rfl⟩
  · exact ⟨_, by
      rw [entryFrame, andThen_done (clearFlag_eq s), andThen_raised (by
        rw [pushViaAlu_eq, push_eq, if_neg (by simpa using h0), if_pos (by simpa using h)])]
      rfl⟩

/-- Everything steps (a) to (c) can do. -/
theorem entryFrame_cases (s : State) :
    (3 ≤ s.sp ∧ s.sp < s.cfg.memSize ∧ entryFrame s = .done () s.entered) ∨
    ∃ f l n d, entryFrame s = .raised f { s with irqFlag := false, aluL := l, aluR := 0#32, aluOut := l, sp := n, dmem := d } ∧
      n ≤ s.sp ∧ (s.dmem.wf → d.wf) ∧
      (s.dmem.wf → (∀ c ∈ s.dmem, c.1 < s.cfg.memSize) → ∀ c ∈ d, c.1 < s.cfg.memSize) := by
  by_cases hm : s.cfg.memSize ≤ s.sp
  · obtain ⟨f, h⟩ := entryFrame_outside s hm
    exact .inr ⟨f, _, _, _, h, Nat.le_refl _, id, fun _ hb => hb⟩
  · by_cases h3 : 3 ≤ s.sp
    · exact .inl ⟨h3, by omega, entryFrame_room s h3 (by omega)⟩
    · obtain ⟨l, h⟩ := entryFrame_overflow s (by omega) (by omega)
      refine .inr ⟨_, _, _, _, h, Nat.zero_le _, fun hw => ?_, fun hw hb => ?_⟩
      · split
        · exact hw
        · split
          · exact Memory.write_wf _ hw _ _
          · exact Memory.write_wf _ (Memory.write_wf _ hw _ _) _ _
      · split
        · exact hb
        · split
          · exact Memory.write_addresses _ hw _ _ _ (by omega) hb
          · exact Memory.write_addresses _ (Memory.write_wf _ hw _ _) _ _ _ (by omega)
              (Memory.write_addresses _ hw _ _ _ (by omega) hb)

/-- A push that raises in interrupt entry (R187). -/
theorem interruptEntry_raised (w : InsnWord) {s t : State} {f : ExecFault} (h : entryFrame s = .raised f t) :
    interruptEntry w s = .next (t.takeFault f t.pc (some w) true) := by
  simp only [interruptEntry, h]

/-- Interrupt entry with room for the frame and an event queued (R178 to R181). -/
theorem interruptEntry_room (w : InsnWord) (s : State) (e : InputEvent) (rest : List InputEvent) (h3 : 3 ≤ s.sp)
    (h : s.sp < s.cfg.memSize) (hq : s.inQueue = e :: rest) :
    interruptEntry w s = .next { s.entered with
      r2 := wrap e.value, inQueue := rest, openHandlers := s.openHandlers + 1 } := by
  have ht : inputTake s.entered = some (wrap e.value, { s.entered with inQueue := rest }) := by
    simp only [inputTake, hq]
  simp only [interruptEntry, entryFrame_room s h3 h, ht]
  rfl

/-- Everything interrupt entry can answer. -/
theorem interruptEntry_cases (w : InsnWord) (s : State) :
    (∃ e rest, 3 ≤ s.sp ∧ s.sp < s.cfg.memSize ∧ s.inQueue = e :: rest ∧
      interruptEntry w s = .next { s.entered with
        r2 := wrap e.value, inQueue := rest, openHandlers := s.openHandlers + 1 }) ∨
    (s.inQueue = [] ∧ interruptEntry w s = .fault .inputQueueEmpty) ∨
    ∃ f l n d, interruptEntry w s = .next
        (State.takeFault { s with irqFlag := false, aluL := l, aluR := 0#32, aluOut := l, sp := n, dmem := d } f s.pc (some w) true) ∧
      n ≤ s.sp ∧ (s.dmem.wf → d.wf) ∧
      (s.dmem.wf → (∀ c ∈ s.dmem, c.1 < s.cfg.memSize) → ∀ c ∈ d, c.1 < s.cfg.memSize) := by
  rcases entryFrame_cases s with ⟨h3, hm, h⟩ | ⟨f, l, n, d, h, hrest⟩
  · cases hq : s.inQueue with
    | nil => exact .inr (.inl ⟨rfl, by simp [interruptEntry, h, inputTake, hq]⟩)
    | cons e rest => exact .inl ⟨e, rest, h3, hm, rfl, interruptEntry_room w s e rest h3 hm hq⟩
  · exact .inr (.inr ⟨f, l, n, d, by simp only [interruptEntry, h], hrest⟩)

/-! ### Fetch (R101) -/

theorem fetch_word {s : State} {w : InsnWord} : fetch s = .ok w ↔ s.imem[uint s.pc]? = some w := by
  unfold fetch; split <;> simp_all

/-- A word placed at an address is what is read there. -/
theorem placeWord_read (m : List InsnWord) (a : Nat) (w : InsnWord) : (placeWord m a w)[a]? = some w := by
  induction a generalizing m with
  | zero => cases m <;> rfl
  | succ a ih => cases m <;> simp [placeWord, ih]

end Sys2Proof.Machine
end

