-- ==== Sys2Proof/Laws/Exec.lean ====
section
/-! SUPPORT. What `exec` and a step can do, said once for all instructions (40_control_unit.md R100, R102). -/

namespace Sys2Proof.Machine

/-! ### Every instruction is the execution of its body -/

/-- The body of each instruction's meaning. -/
def bodyOf : Instr → Micro Unit
  | .addReg d _ => arithReg .add d
  | .addImm d n => arithImm .add d n
  | .subReg d _ => arithReg .sub d
  | .subImm d n => arithImm .sub d n
  | .mulReg d _ => arithReg .mul d
  | .mulImm d n => arithImm .mul d n
  | .divReg d _ => arithReg .div d
  | .divImm d n => arithImm .div d n
  | .jmp t => setPc (zextW t)
  | .je r t => jumpIfZero r t
  | .call t => callTo t
  | .ret => returnFromCall
  | .ldReg r a => load r (.registerIndirect a)
  | .ldImm r n => load r (.absolute n)
  | .stReg r a => store r (.registerIndirect a)
  | .stImm r n => store r (.absolute n)
  | .out r => output r
  | .rst => interruptReturn
  | .hlt => halt

theorem exec_eq_execute (i : Instr) (s : State) : exec i s = execute (bodyOf i) s := by cases i <;> rfl

theorem exec_done {i : Instr} {s t : State} (h : bodyOf i s = .done () t) : exec i s = .next t := by
  rw [exec_eq_execute, execute_done h]

theorem exec_raised {i : Instr} {s t : State} {f : ExecFault} (h : bodyOf i s = .raised f t) :
    exec i s = .next (t.takeFault f s.pc s.currentWord false) := by
  rw [exec_eq_execute, execute_raised h]

/-- `exec` answers a next state, always: a completed body or a fault taken (R173). -/
theorem exec_cases {i : Instr} {s u : State} (h : exec i s = .next u) :
    bodyOf i s = .done () u ∨ ∃ f t, bodyOf i s = .raised f t ∧ u = t.takeFault f s.pc s.currentWord false := by
  rw [exec_eq_execute] at h
  exact execute_cases h

theorem exec_not_fault (i : Instr) (s : State) (r : Fault) : exec i s ≠ .fault r := by
  obtain ⟨t, h⟩ := execute_next (bodyOf i) s
  rw [exec_eq_execute, h]
  exact nofun

theorem exec_not_refused (i : Instr) (s : State) (r : Refusal) : exec i s ≠ .refused r := by
  obtain ⟨t, h⟩ := execute_next (bodyOf i) s
  rw [exec_eq_execute, h]
  exact nofun

/-! ### What a body can change -/

/-- What every body leaves as it was, and the ranges it keeps, completed or raised. -/
structure BodyKeeps (s t : State) : Prop where
  outside   : s.SameOutside t
  stack     : 1 ≤ s.cfg.memSize → s.sp ≤ s.cfg.memSize - 1 → t.sp ≤ t.cfg.memSize - 1
  memory    : s.dmem.wf → t.dmem.wf
  addresses : s.dmem.wf → (∀ c ∈ s.dmem, c.1 < s.cfg.memSize) → ∀ c ∈ t.dmem, c.1 < t.cfg.memSize
  handlers  : t.openHandlers ≤ s.openHandlers

/-- Where a body leaves memory, stack pointer and count alone, the rest follows. -/
theorem BodyKeeps.of_same {s t : State} (h : s.SameOutside t) (hs : t.sp = s.sp) (hd : t.dmem = s.dmem)
    (ho : t.openHandlers = s.openHandlers) : BodyKeeps s t where
  outside := h
  stack := by rw [hs, h.cfg]; exact fun _ => id
  memory := by rw [hd]; exact id
  addresses := by rw [hd, h.cfg]; exact fun _ => id
  handlers := by rw [ho]

/-- One word of memory written below MEM_SIZE keeps the memory's form. -/
theorem BodyKeeps.of_write {s t : State} (h : s.SameOutside t) (hs : s.sp ≤ s.cfg.memSize - 1 → t.sp ≤ s.cfg.memSize - 1)
    (a : Nat) (v : Word) (ha : a < s.cfg.memSize) (hd : t.dmem = s.dmem.write a v)
    (ho : t.openHandlers = s.openHandlers) : BodyKeeps s t where
  outside := h
  stack := by rw [h.cfg]; exact fun _ => hs
  memory := by rw [hd]; exact fun hw => Memory.write_wf _ hw _ _
  addresses := by rw [hd, h.cfg]; exact fun hw hb => Memory.write_addresses _ hw _ _ _ ha hb
  handlers := by rw [ho]

theorem arithReg_keeps {op : AluOp} {d : Reg} {s t : State} :
    (arithReg op d s = .done () t → BodyKeeps s t ∧ t.runState = s.runState) ∧
    (∀ f, arithReg op d s = .raised f t → BodyKeeps s t ∧ t.runState = s.runState) := by
  rw [arithReg_eq]
  cases aluResult op s.r1 s.r2 with
  | none =>
    refine ⟨nofun, fun f h => ?_⟩
    cases h; exact ⟨.of_same ⟨rfl, rfl, rfl, rfl, rfl, rfl, rfl⟩ rfl rfl rfl, rfl⟩
  | some v =>
    refine ⟨fun h => ?_, nofun⟩
    cases h; exact ⟨.of_same (by constructor <;> simp) (by simp) (by simp) (by simp), by simp⟩

theorem arithImm_keeps {op : AluOp} {d : Reg} {n : Nat} {s t : State} :
    (arithImm op d n s = .done () t → BodyKeeps s t ∧ t.runState = s.runState) ∧
    (∀ f, arithImm op d n s = .raised f t → BodyKeeps s t ∧ t.runState = s.runState) := by
  rw [arithImm_eq]
  cases aluResult op (s.getReg d) (zextW n) with
  | none =>
    refine ⟨nofun, fun f h => ?_⟩
    cases h; exact ⟨.of_same ⟨rfl, rfl, rfl, rfl, rfl, rfl, rfl⟩ rfl rfl rfl, rfl⟩
  | some v =>
    refine ⟨fun h => ?_, nofun⟩
    cases h; exact ⟨.of_same (by constructor <;> simp) (by simp) (by simp) (by simp), by simp⟩

theorem load_keeps {r : Reg} {a : Addressing} {s t : State} :
    (load r a s = .done () t → BodyKeeps s t ∧ t.runState = s.runState) ∧
    (∀ f, load r a s = .raised f t → BodyKeeps s t ∧ t.runState = s.runState) := by
  rw [load_eq]
  split
  · refine ⟨nofun, fun f h => ?_⟩
    cases h; exact ⟨.of_same ⟨rfl, rfl, rfl, rfl, rfl, rfl, rfl⟩ rfl rfl rfl, rfl⟩
  · refine ⟨fun h => ?_, nofun⟩
    cases h; exact ⟨.of_same (by constructor <;> simp) (by simp) (by simp) (by simp), by simp⟩

theorem store_keeps {r : Reg} {a : Addressing} {s t : State} :
    (store r a s = .done () t → BodyKeeps s t ∧ t.runState = s.runState) ∧
    (∀ f, store r a s = .raised f t → BodyKeeps s t ∧ t.runState = s.runState) := by
  rw [store_eq]
  split
  · refine ⟨nofun, fun f h => ?_⟩
    cases h; exact ⟨.of_same ⟨rfl, rfl, rfl, rfl, rfl, rfl, rfl⟩ rfl rfl rfl, rfl⟩
  · refine ⟨fun h => ?_, nofun⟩
    cases h
    exact ⟨.of_write ⟨rfl, rfl, rfl, rfl, rfl, rfl, rfl⟩ id (a.address s) (s.getReg r) (by omega) rfl rfl, rfl⟩

theorem callTo_keeps {n : Nat} {s t : State} :
    (callTo n s = .done () t → BodyKeeps s t ∧ t.runState = s.runState) ∧
    (∀ f, callTo n s = .raised f t → BodyKeeps s t ∧ t.runState = s.runState) := by
  rw [callTo_eq]
  split
  · refine ⟨nofun, fun f h => ?_⟩
    cases h; exact ⟨.of_same ⟨rfl, rfl, rfl, rfl, rfl, rfl, rfl⟩ rfl rfl rfl, rfl⟩
  · split
    · refine ⟨nofun, fun f h => ?_⟩
      cases h; exact ⟨.of_same ⟨rfl, rfl, rfl, rfl, rfl, rfl, rfl⟩ rfl rfl rfl, rfl⟩
    · refine ⟨fun h => ?_, nofun⟩
      cases h
      exact ⟨.of_write ⟨rfl, rfl, rfl, rfl, rfl, rfl, rfl⟩ (fun h => by simp; omega) s.sp s.pc (by omega) rfl rfl, rfl⟩

theorem returnFromCall_keeps {s t : State} :
    (returnFromCall s = .done () t → BodyKeeps s t ∧ t.runState = s.runState) ∧
    (∀ f, returnFromCall s = .raised f t → BodyKeeps s t ∧ t.runState = s.runState) := by
  rw [returnFromCall_eq]
  split
  · refine ⟨nofun, fun f h => ?_⟩
    cases h; exact ⟨.of_same ⟨rfl, rfl, rfl, rfl, rfl, rfl, rfl⟩ rfl rfl rfl, rfl⟩
  · split
    · refine ⟨nofun, fun f h => ?_⟩
      cases h
      exact ⟨⟨⟨rfl, rfl, rfl, rfl, rfl, rfl, rfl⟩, fun _ h => by simp; omega, id, fun _ => id, Nat.le_refl _⟩, rfl⟩
    · refine ⟨fun h => ?_, nofun⟩
      cases h
      exact ⟨⟨⟨rfl, rfl, rfl, rfl, rfl, rfl, rfl⟩, fun _ h => by simp; omega, id, fun _ => id, Nat.le_refl _⟩, rfl⟩

theorem interruptReturn_keeps {s t : State} :
    (interruptReturn s = .done () t → BodyKeeps s t ∧ t.runState = s.runState) ∧
    (∀ f, interruptReturn s = .raised f t → BodyKeeps s t ∧ t.runState = s.runState) := by
  rcases interruptReturn_cases s with ⟨h4, h⟩ | ⟨f, p, l, r, o, q, n, h, hn⟩ <;> rw [h]
  · refine ⟨fun h => ?_, nofun⟩
    cases h
    exact ⟨⟨⟨rfl, rfl, rfl, rfl, rfl, rfl, rfl⟩, fun _ _ => h4, id, fun _ => id, by simp⟩, rfl⟩
  · refine ⟨nofun, fun f h => ?_⟩
    cases h
    exact ⟨⟨⟨rfl, rfl, rfl, rfl, rfl, rfl, rfl⟩, fun _ h => by simp; omega, id, fun _ => id, Nat.le_refl _⟩, rfl⟩

/-- What every instruction's body keeps; only HLT's changes the run state. -/
theorem bodyOf_done_keeps {i : Instr} {s t : State} (h : bodyOf i s = .done () t) :
    BodyKeeps s t ∧ (t.runState = s.runState ∨ i = .hlt ∧ t.runState = .halted) := by
  have use : ∀ {p : Prop}, p ∧ t.runState = s.runState → p ∧ (t.runState = s.runState ∨ i = .hlt ∧ t.runState = .halted) :=
    fun h => ⟨h.1, .inl h.2⟩
  cases i with
  | addReg d q => exact use (arithReg_keeps.1 h)
  | addImm d n => exact use (arithImm_keeps.1 h)
  | subReg d q => exact use (arithReg_keeps.1 h)
  | subImm d n => exact use (arithImm_keeps.1 h)
  | mulReg d q => exact use (arithReg_keeps.1 h)
  | mulImm d n => exact use (arithImm_keeps.1 h)
  | divReg d q => exact use (arithReg_keeps.1 h)
  | divImm d n => exact use (arithImm_keeps.1 h)
  | jmp n => cases h; exact ⟨.of_same ⟨rfl, rfl, rfl, rfl, rfl, rfl, rfl⟩ rfl rfl rfl, .inl rfl⟩
  | je r n =>
    rw [bodyOf, jumpIfZero_eq] at h
    cases h; exact ⟨.of_same ⟨rfl, rfl, rfl, rfl, rfl, rfl, rfl⟩ rfl rfl rfl, .inl rfl⟩
  | call n => exact use (callTo_keeps.1 h)
  | ret => exact use (returnFromCall_keeps.1 h)
  | ldReg r a => exact use (load_keeps.1 h)
  | ldImm r n => exact use (load_keeps.1 h)
  | stReg r a => exact use (store_keeps.1 h)
  | stImm r n => exact use (store_keeps.1 h)
  | out r =>
    rw [bodyOf, output_eq] at h
    cases h; exact ⟨.of_same ⟨rfl, rfl, rfl, rfl, rfl, rfl, rfl⟩ rfl rfl rfl, .inl rfl⟩
  | rst => exact use (interruptReturn_keeps.1 h)
  | hlt => cases h; exact ⟨.of_same ⟨rfl, rfl, rfl, rfl, rfl, rfl, rfl⟩ rfl rfl rfl, .inr ⟨rfl, rfl⟩⟩

theorem bodyOf_raised_keeps {i : Instr} {s t : State} {f : ExecFault} (h : bodyOf i s = .raised f t) :
    BodyKeeps s t ∧ t.runState = s.runState := by
  cases i with
  | addReg d q => exact arithReg_keeps.2 f h
  | addImm d n => exact arithImm_keeps.2 f h
  | subReg d q => exact arithReg_keeps.2 f h
  | subImm d n => exact arithImm_keeps.2 f h
  | mulReg d q => exact arithReg_keeps.2 f h
  | mulImm d n => exact arithImm_keeps.2 f h
  | divReg d q => exact arithReg_keeps.2 f h
  | divImm d n => exact arithImm_keeps.2 f h
  | jmp n => cases h
  | je r n => rw [bodyOf, jumpIfZero_eq] at h; cases h
  | call n => exact callTo_keeps.2 f h
  | ret => exact returnFromCall_keeps.2 f h
  | ldReg r a => exact load_keeps.2 f h
  | ldImm r n => exact load_keeps.2 f h
  | stReg r a => exact store_keeps.2 f h
  | stImm r n => exact store_keeps.2 f h
  | out r => rw [bodyOf, output_eq] at h; cases h
  | rst => exact interruptReturn_keeps.2 f h
  | hlt => cases h

/-- What every instruction keeps (R17, R19, R22, R176), completed or faulted. -/
theorem exec_keeps {i : Instr} {s t : State} (h : exec i s = .next t) : BodyKeeps s t := by
  rcases exec_cases h with hb | ⟨f, u, hb, rfl⟩
  · exact (bodyOf_done_keeps hb).1
  · have k := (bodyOf_raised_keeps hb).1
    exact ⟨⟨k.outside.cfg, k.outside.imem, k.outside.entry, k.outside.tick, k.outside.irqFlag, k.outside.inQueue,
      k.outside.iterations⟩, k.stack, k.memory, k.addresses, k.handlers⟩

/-! ### A step, case by case -/

/-- Everything a step can answer a next state from: the run has ended; the budget is spent; the fetch fails; the word is
undefined; or an instruction executes and the rest of the iteration follows. -/
theorem step_cases {s u : State} (h : step s = .next u) :
    (s.runState ≠ .running ∧ u = s) ∨
    (s.runState = .running ∧ s.budgetSpent = true ∧ u = s.takeFault .iterationBudgetExceeded s.pc none false) ∨
    (s.CanStep ∧ fetch s = .error (.fetchOutOfRange s.pc) ∧
      u = countIteration ((schedule s).takeFault (.fetchOutOfRange s.pc) s.pc none false)) ∨
    (∃ w e, s.CanStep ∧ s.imem[uint s.pc]? = some w ∧ decode w = .error e ∧
      u = countIteration ((schedule s).takeFault (.unknownOpcode w) s.pc (some w) false)) ∨
    ∃ w i t v, s.CanStep ∧ s.imem[uint s.pc]? = some w ∧ decode w = .ok i ∧ exec i (schedule s) = .next t ∧
      afterExecute w t = .next v ∧ u = countIteration v := by
  unfold step driverPass at h
  split at h
  · rename_i hr
    refine .inr ?_
    split at h
    · rename_i hb; cases h; exact .inl ⟨hr, hb, rfl⟩
    · rename_i hb
      split at h
      · cases h
      · rename_i hc
        have can : s.CanStep := ⟨hr, by simpa using hb, by simpa [State.collisionFree] using hc⟩
        refine .inr ?_
        obtain ⟨v, hit, hv⟩ := onNext_eq_next h
        cases hv
        unfold iteration fetch at hit
        simp only [schedule_imem, schedule_pc] at hit
        cases hw : s.imem[uint s.pc]? with
        | none =>
          rw [hw] at hit
          cases hit
          exact .inl ⟨can, by unfold fetch; rw [hw], rfl⟩
        | some w =>
          rw [hw] at hit
          simp only [] at hit
          refine .inr ?_
          cases hd : decode w with
          | error e =>
            rw [hd] at hit
            cases hit
            exact .inl ⟨w, e, can, rfl, hd, rfl⟩
          | ok i =>
            rw [hd] at hit
            obtain ⟨t, ht, hv⟩ := onNext_eq_next hit
            exact .inr ⟨w, i, t, v, can, rfl, hd, ht, hv, rfl⟩
  · rename_i hr; cases h; exact .inl ⟨hr, rfl⟩

/-- Everything that follows an instruction in its iteration (R104, R105). -/
theorem afterExecute_cases {w : InsnWord} {s u : State} (h : afterExecute w s = .next u) :
    (s.runState ≠ .running ∧ u = s) ∨
    (s.runState = .running ∧ s.irqFlag = false ∧ u = advanceTick s) ∨
    (s.runState = .running ∧ s.irqFlag = true ∧ ∃ t, interruptEntry w s = .next t ∧ u = advanceTick t) := by
  unfold afterExecute at h
  split at h
  · rename_i hr
    obtain ⟨t, ht, hu⟩ := onNext_eq_next h
    cases hu
    split at ht
    · rename_i hf; exact .inr (.inr ⟨hr, hf, t, ht, rfl⟩)
    · rename_i hf; cases ht; exact .inr (.inl ⟨hr, by simpa using hf, rfl⟩)
  · rename_i hr; cases h; exact .inl ⟨hr, rfl⟩

end Sys2Proof.Machine
end

