-- ==== Sys2Proof/Laws/PerInstr.lean ====
section
/-! SUPPORT. The family MaskMatch, per instruction: its word has its row's pattern under its row's mask
(30_encoding.md R77, R83; opcode_table.json). -/

namespace Sys2Proof.Laws.MaskMatch

/-- The instruction's encoding is a word of its own row of the opcode table. -/
def Statement (i : Instr) : Prop := encode i &&& i.row.mask = i.row.pattern

theorem addReg (dest operand : Reg) : Statement (.addReg dest operand) := (encodeAReg_mask 0#4 dest operand).trans rfl
theorem addImm (dest : Reg) (imm : Nat) : Statement (.addImm dest imm) := (encodeAImm_mask 0#4 dest imm).trans rfl
theorem subReg (dest operand : Reg) : Statement (.subReg dest operand) := (encodeAReg_mask 1#4 dest operand).trans rfl
theorem subImm (dest : Reg) (imm : Nat) : Statement (.subImm dest imm) := (encodeAImm_mask 1#4 dest imm).trans rfl
theorem mulReg (dest operand : Reg) : Statement (.mulReg dest operand) := (encodeAReg_mask 2#4 dest operand).trans rfl
theorem mulImm (dest : Reg) (imm : Nat) : Statement (.mulImm dest imm) := (encodeAImm_mask 2#4 dest imm).trans rfl
theorem divReg (dest operand : Reg) : Statement (.divReg dest operand) := (encodeAReg_mask 3#4 dest operand).trans rfl
theorem divImm (dest : Reg) (imm : Nat) : Statement (.divImm dest imm) := (encodeAImm_mask 3#4 dest imm).trans rfl
theorem jmp (target : Nat) : Statement (.jmp target) := (encodeJ_mask 4#4 target).trans rfl
theorem je (tested : Reg) (target : Nat) : Statement (.je tested target) := (encodeT_mask 5#4 tested target).trans rfl
theorem call (target : Nat) : Statement (.call target) := (encodeJ_mask 6#4 target).trans rfl
theorem ret : Statement (.ret) := rfl
theorem ldReg (reg addr : Reg) : Statement (.ldReg reg addr) := (encodeAReg_mask 8#4 reg addr).trans rfl
theorem ldImm (reg : Reg) (imm : Nat) : Statement (.ldImm reg imm) := (encodeAImm_mask 8#4 reg imm).trans rfl
theorem stReg (reg addr : Reg) : Statement (.stReg reg addr) := (encodeAReg_mask 9#4 reg addr).trans rfl
theorem stImm (reg : Reg) (imm : Nat) : Statement (.stImm reg imm) := (encodeAImm_mask 9#4 reg imm).trans rfl
theorem out (src : Reg) : Statement (.out src) := (encodeO_mask 10#4 src).trans rfl
theorem rst : Statement (.rst) := rfl
theorem hlt : Statement (.hlt) := rfl

end Sys2Proof.Laws.MaskMatch
end

