-- ==== Sys2Proof/Tests/Slice0.lean ====
section
/-! SUPPORT. Tests of one step each, their expected values from spec/95_test_vectors.md, and for every statement with
hypotheses a named witness that meets them. -/

open Sys2Proof Sys2Proof.Machine

namespace Sys2Proof.Tests

/-! ### Helpers -/

/-- A machine with eight words of data memory and the given program: sp = 7, pc = 0. -/
def small (words : List InsnWord) : State := State.loaded ⟨8, none⟩ 0#16 words [] []

/-- A machine of the default size with the given registers. -/
def holding (r1 r2 : Int) : State := { State.reset with r1 := wrap r1, r2 := wrap r2 }

/-- The next state of an outcome. -/
def answer : Host.Outcome State Fault Refusal → Option State
  | .next t => some t
  | .fault _ => none
  | .refused _ => none

/-- The next state, the reset state where there is none. -/
def stateAfter (o : Host.Outcome State Fault Refusal) : State := (answer o).getD State.reset

theorem next_intro {o : Host.Outcome State Fault Refusal} (h : (answer o).isSome = true) : o = .next (stateAfter o) := by
  cases o <;> first | rfl | cases h

theorem next_with {o : Host.Outcome State Fault Refusal} {P : State → Prop} (h : (answer o).isSome = true ∧ P (stateAfter o)) :
    ∃ t, o = .next t ∧ P t := ⟨_, next_intro h.1, h.2⟩

theorem next_exists {o : Host.Outcome State Fault Refusal} (h : (answer o).isSome = true) : ∃ t, o = .next t :=
  ⟨_, next_intro h⟩

/-- The general registers after an instruction, read as signed numbers, with the pc. -/
def registers (o : Host.Outcome State Fault Refusal) : Option (Int × Int × Nat) :=
  (answer o).map fun t => (sint t.r1, sint t.r2, uint t.pc)

/-- The fault a run ended in. -/
def faultOf (o : Host.Outcome State Fault Refusal) : Option ExecFault :=
  match answer o with
  | some t => match t.runState with
    | .faulted record => some record.fault
    | .running => none
    | .halted => none
  | none => none

theorem inv_intro {s : State} (h : s.cfg.wf ∧ s.sp ≤ s.cfg.memSize - 1 ∧ s.dmem.wf ∧ (∀ c ∈ s.dmem, c.1 < s.cfg.memSize) ∧
    s.progLen ≤ imemWords ∧ s.inQueue.Pairwise (fun e f => e.scheduledTick ≤ f.scheduledTick) ∧
    (s.irqFlag = true → s.inQueue ≠ []) ∧ s.iterations ≤ s.cfg.iterBudget.getD s.iterations) : s.Inv :=
  ⟨h.1, h.2.1, h.2.2.1, h.2.2.2.1, h.2.2.2.2.1, h.2.2.2.2.2.1, h.2.2.2.2.2.2.1,
    fun b hb => by simpa [hb] using h.2.2.2.2.2.2.2⟩

theorem can_intro {s : State} (h : s.runState = .running ∧ s.budgetSpent = false ∧ s.collides = false) : s.CanStep :=
  ⟨h.1, h.2.1, h.2.2⟩

/-! ### WellFormed smoke: a literal of 1024 is refused in every form that has one, 1023 is not (R79, R83) -/

theorem test_wellFormed_addImm : Instr.wellFormed (.addImm .r1 1024) = false ∧ Instr.wellFormed (.addImm .r1 1023) = true := by decide
theorem test_wellFormed_subImm : Instr.wellFormed (.subImm .r2 1024) = false ∧ Instr.wellFormed (.subImm .r2 1023) = true := by decide
theorem test_wellFormed_mulImm : Instr.wellFormed (.mulImm .r1 1024) = false ∧ Instr.wellFormed (.mulImm .r1 1023) = true := by decide
theorem test_wellFormed_divImm : Instr.wellFormed (.divImm .r2 1024) = false ∧ Instr.wellFormed (.divImm .r2 1023) = true := by decide
theorem test_wellFormed_jmp : Instr.wellFormed (.jmp 1024) = false ∧ Instr.wellFormed (.jmp 1023) = true := by decide
theorem test_wellFormed_je : Instr.wellFormed (.je .r1 1024) = false ∧ Instr.wellFormed (.je .r1 1023) = true := by decide
theorem test_wellFormed_call : Instr.wellFormed (.call 1024) = false ∧ Instr.wellFormed (.call 1023) = true := by decide
theorem test_wellFormed_ldImm : Instr.wellFormed (.ldImm .r2 1024) = false ∧ Instr.wellFormed (.ldImm .r2 1023) = true := by decide
theorem test_wellFormed_stImm : Instr.wellFormed (.stImm .r1 1024) = false ∧ Instr.wellFormed (.stImm .r1 1023) = true := by decide
theorem test_encode_out_of_range : encodeChecked (.addImm .r1 1024) = .error .operandOutOfRange := by decide

/-! ### Decoding: every form by a word written out from its encoding (V-DEC) -/

theorem test_decode_addReg : decode 0b0000100000000001#16 = .ok (.addReg .r1 .r2) ∧ encode (.addReg .r1 .r2) = 0b0000100000000001#16 := by decide
theorem test_decode_addImm : decode 0b0000010000000101#16 = .ok (.addImm .r2 5) ∧ encode (.addImm .r2 5) = 0b0000010000000101#16 := by decide
theorem test_decode_subReg : decode 0b0001100000000001#16 = .ok (.subReg .r1 .r2) ∧ encode (.subReg .r1 .r2) = 0b0001100000000001#16 := by decide
theorem test_decode_subImm : decode 0b0001010000000001#16 = .ok (.subImm .r2 1) ∧ encode (.subImm .r2 1) = 0b0001010000000001#16 := by decide
theorem test_decode_mulReg : decode 0b0010110000000000#16 = .ok (.mulReg .r2 .r1) ∧ encode (.mulReg .r2 .r1) = 0b0010110000000000#16 := by decide
theorem test_decode_mulImm : decode 0b0010000000000111#16 = .ok (.mulImm .r1 7) ∧ encode (.mulImm .r1 7) = 0b0010000000000111#16 := by decide
theorem test_decode_divReg : decode 0b0011100000000001#16 = .ok (.divReg .r1 .r2) ∧ encode (.divReg .r1 .r2) = 0b0011100000000001#16 := by decide
theorem test_decode_divImm : decode 0b0011000000001010#16 = .ok (.divImm .r1 10) ∧ encode (.divImm .r1 10) = 0b0011000000001010#16 := by decide
theorem test_decode_jmp : decode 0b0100000000000011#16 = .ok (.jmp 3) ∧ encode (.jmp 3) = 0b0100000000000011#16 := by decide
theorem test_decode_je : decode 0b0101100000000111#16 = .ok (.je .r2 7) ∧ encode (.je .r2 7) = 0b0101100000000111#16 := by decide
theorem test_decode_call : decode 0b0110000000000011#16 = .ok (.call 3) ∧ encode (.call 3) = 0b0110000000000011#16 := by decide
theorem test_decode_ret : decode 0b0111000000000000#16 = .ok .ret ∧ encode .ret = 0b0111000000000000#16 := by decide
theorem test_decode_ldReg : decode 0b1000110000000000#16 = .ok (.ldReg .r2 .r1) ∧ encode (.ldReg .r2 .r1) = 0b1000110000000000#16 := by decide
theorem test_decode_ldImm : decode 0b1000011111111111#16 = .ok (.ldImm .r2 1023) ∧ encode (.ldImm .r2 1023) = 0b1000011111111111#16 := by decide
theorem test_decode_stReg : decode 0b1001100000000001#16 = .ok (.stReg .r1 .r2) ∧ encode (.stReg .r1 .r2) = 0b1001100000000001#16 := by decide
theorem test_decode_stImm : decode 0b1001000000011110#16 = .ok (.stImm .r1 30) ∧ encode (.stImm .r1 30) = 0b1001000000011110#16 := by decide
theorem test_decode_out : decode 0b1010100000000000#16 = .ok (.out .r2) ∧ encode (.out .r2) = 0b1010100000000000#16 := by decide
theorem test_decode_rst : decode 0b1011000000000000#16 = .ok .rst ∧ encode .rst = 0b1011000000000000#16 := by decide
theorem test_decode_hlt : decode 0b1100000000000000#16 = .ok .hlt ∧ encode .hlt = 0b1100000000000000#16 := by decide

/-- V-DEC: ignored bits set. -/
theorem test_decode_ignored_bits :
    decode 0b0000101111111111#16 = .ok (.addReg .r1 .r2) ∧ decode 0b0100110000000011#16 = .ok (.jmp 3) ∧
    decode 0b0101110000000111#16 = .ok (.je .r2 7) ∧ decode 0b0111111111111111#16 = .ok .ret ∧
    decode 0b1010011111111111#16 = .ok (.out .r1) ∧ decode 0b1100101010111100#16 = .ok .hlt := by decide

/-- V-DEC: the three undefined nibbles. -/
theorem test_decode_undefined :
    decode 0xD000#16 = .error (.unknownOpcode 0xD000#16) ∧ decode 0xE123#16 = .error (.unknownOpcode 0xE123#16) ∧
    decode 0xFFFF#16 = .error (.unknownOpcode 0xFFFF#16) := by decide

/-- R42: the first byte of an instruction is its bits 15..8; R87: one byte is no instruction. -/
theorem test_decode_bytes :
    decodeBytes [0x60#8, 0x03#8, 0xC0#8] = .ok (.call 3, [0xC0#8]) ∧ decodeBytes [0x60#8] = .error .truncatedStream := by decide

theorem test_decodeTableWord :
    decodeTableWord 16 0x9800 = some (.stReg .r1 .r1) ∧ decodeTableWord 16 0x0000 = some (.addImm .r1 0) ∧
    decodeTableWord 16 0xD000 = none := by decide

/-! ### Arithmetic (V-ALU: registers before, instruction, registers and pc after) -/

theorem test_addReg_same_register : registers (exec (.addReg .r2 .r2) (holding 7 5)) = some (7, 12, 1) := by decide
theorem test_addReg_wraps : registers (exec (.addReg .r1 .r2) (holding 2147483647 1)) = some (-2147483648, 1, 1) := by decide
theorem test_addImm_wraps : registers (exec (.addImm .r1 1023) (holding 2147483647 0)) = some (-2147482626, 0, 1) := by decide
theorem test_addImm_second_register : registers (exec (.addImm .r2 5) (holding 99 10)) = some (99, 15, 1) := by decide
theorem test_subReg_direction : registers (exec (.subReg .r2 .r1) (holding 3 5)) = some (3, -2, 1) := by decide
theorem test_subReg_no_clear : registers (exec (.subReg .r1 .r1) (holding 3 5)) = some (-2, 5, 1) := by decide
theorem test_subImm_negative : registers (exec (.subImm .r1 1023) (holding 0 0)) = some (-1023, 0, 1) := by decide
theorem test_subImm_to_zero : registers (exec (.subImm .r2 1) (holding 0 1)) = some (0, 0, 1) := by decide
theorem test_mulReg_wraps : registers (exec (.mulReg .r1 .r2) (holding 46341 46341)) = some (-2147479015, 46341, 1) := by decide
theorem test_mulReg_second_register : registers (exec (.mulReg .r2 .r1) (holding (-3) 5)) = some (-3, -15, 1) := by decide
theorem test_mulImm_largest : registers (exec (.mulImm .r1 1023) (holding 123456 0)) = some (126295488, 0, 1) := by decide
theorem test_mulImm_zero : registers (exec (.mulImm .r2 0) (holding 9 1234)) = some (9, 0, 1) := by decide
theorem test_divReg_truncates : registers (exec (.divReg .r1 .r2) (holding (-7) 2)) = some (-3, 2, 1) := by decide
theorem test_divReg_overflow_wraps : registers (exec (.divReg .r1 .r2) (holding (-2147483648) (-1))) = some (-2147483648, -1, 1) := by decide
theorem test_divImm_negative : registers (exec (.divImm .r1 1023) (holding (-2147483648) 0)) = some (-2099202, 0, 1) := by decide

/-- Scenario C: `DIV R1,0`. -/
theorem test_divImm_by_zero : faultOf (exec (.divImm .r1 0) (holding 7 0)) = some .divisionByZero := by decide

/-! ### LD, ST, OUT (V-MEM) -/

/-- The row: R2 = 20, DMem[20] = 5. -/
def withWord (a : Nat) (v : Int) (s : State) : State := { s with dmem := s.dmem.write a (wrap v) }

theorem test_ldImm_address : registers (exec (.ldImm .r1 10) (withWord 10 7 (holding 0 0))) = some (7, 0, 1) := by decide
theorem test_ldImm_top_word : registers (exec (.ldImm .r1 1023) (withWord 1023 33 (holding 0 0))) = some (33, 0, 1) := by decide
theorem test_ldReg_own_address : registers (exec (.ldReg .r1 .r1) (withWord 20 5 (holding 20 0))) = some (5, 0, 1) := by decide
theorem test_ldReg_negative_address :
    faultOf (exec (.ldReg .r1 .r2) (holding 0 (-1))) = some (.dataAddressOutOfRange 0xFFFFFFFF#32) := by decide
theorem test_stImm : (answer (exec (.stImm .r1 30) (holding 12 0))).map (fun t => (t.dmem, t.aluOut, t.pc)) =
    some ([(30, 12#32)], 12#32, 1#32) := by decide
theorem test_stImm_negative : (answer (exec (.stImm .r2 0) (holding 0 (-5)))).map (fun t => sint (t.dmem.read 0)) =
    some (-5) := by decide
theorem test_stReg : (answer (exec (.stReg .r2 .r1) (holding 100 65))).map (fun t => t.dmem) = some [(100, 65#32)] := by decide
theorem test_stReg_out_of_range :
    faultOf (exec (.stReg .r1 .r2) (holding 3 5000)) = some (.dataAddressOutOfRange 5000#32) := by decide
theorem test_out_appends : (answer (exec (.out .r2) { holding 0 65 with outBuf := [7] })).map (·.outBuf) = some [7, 65] := by decide
theorem test_out_signed : (answer (exec (.out .r1) (holding (-1) 0))).map (·.outBuf) = some [-1] := by decide

/-! ### Control transfer (V-CTL) -/

theorem test_jmp : registers (exec (.jmp 3) { holding 0 0 with pc := 6#32 }) = some (0, 0, 3) := by decide
theorem test_je_taken : registers (exec (.je .r1 7) { holding 0 5 with pc := 3#32 }) = some (0, 5, 7) := by decide
theorem test_je_all_bits :
    registers (exec (.je .r2 7) { holding 0 (-2147483648) with pc := 3#32 }) = some (0, -2147483648, 4) := by decide
theorem test_call : (answer (exec (.call 3) { holding 0 0 with pc := 1#32 })).map (fun t => (t.dmem, t.sp, t.pc, t.aluOut)) =
    some ([(1023, 1#32)], 1022, 3#32, 1#32) := by decide
theorem test_call_overflow : faultOf (exec (.call 3) { holding 0 0 with sp := 0 }) = some .stackOverflow := by decide
theorem test_ret_wide : (answer (exec .ret { withWord 1023 5000 (holding 0 0) with sp := 1022 })).map (fun t => (t.sp, t.pc)) =
    some (1023, 5000#32) := by decide
theorem test_ret_underflow : faultOf (exec .ret (holding 0 0)) = some .stackUnderflow := by decide

/-! ### RST and HLT (V-RST) -/

/-- V-RST row 1: DMem[1020..1023] = 0, 2, 9, 66. -/
def inHandler : State :=
  { withWord 1021 2 (withWord 1022 9 (withWord 1023 66 (holding 1 65))) with sp := 1019 }

theorem test_rst : (answer (exec .rst inHandler)).map (fun t => (t.pc, t.r2, t.r1, t.sp)) =
    some (2#32, 9#32, 66#32, 1023) := by decide
/-- V-RST: three words on the stack, the fault at pop 4. -/
theorem test_rst_partial : (answer (exec .rst { withWord 1022 4 (withWord 1023 8 (holding 1 2)) with sp := 1020 })).map
    (fun t => (t.pc, t.r2, t.r1, t.sp)) = some (4#32, 8#32, 1#32, 1023) := by decide
theorem test_hlt : answer (exec .hlt { holding 1 2 with pc := 5#32 }) =
    some { holding 1 2 with pc := 5#32, runState := .halted } := by decide

/-! ### One step (V-INT, driver) -/

/-- V-INT row 1: `LD R1,10` at pc = 1 with an event queued for tick 0, DMem[10] = 66. -/
def beforeEntry : State :=
  { withWord 10 66 (holding 0 0) with imem := [0x6006#16, 0x800A#16], pc := 1#32, inQueue := [⟨0, 65⟩] }

theorem test_step_interrupt : (answer (step beforeEntry)).map (fun t => (t.r1, t.r2, t.pc, t.sp, t.tick, t.irqFlag)) =
    some (66#32, 65#32, 0#32, 1020, 1, false) := by decide
theorem test_step_interrupt_frame : (answer (step beforeEntry)).map (fun t => (t.dmem, t.inQueue)) =
    some ([(10, 66#32), (1021, 2#32), (1023, 66#32)], []) := by decide

/-- V-INT: MEM_SIZE = 3, the third push of the entry faults (R187). -/
def tightEntry : State :=
  { State.loaded ⟨3, none⟩ 1#16 [0x6000#16, 0x0001#16] [] [⟨0, 9⟩] with r1 := 11#32, r2 := 22#32 }

theorem test_step_entry_overflow :
    (answer (step tightEntry)).map (fun t => (t.r1, t.r2, t.pc, t.dmem)) =
      some (12#32, 22#32, 2#32, [(1, 22#32), (2, 12#32)]) ∧
    (answer (step tightEntry)).map (fun t => (t.irqFlag, t.inQueue, t.runState)) =
      some (false, [⟨0, 9⟩], .faulted ⟨.stackOverflow, 2#32, some 0x0001#16, 0, true⟩) := by decide

/-- V-RST, R161: HLT with an event pending; the event is never served. -/
theorem test_step_halt_pending :
    (answer (step { small [0xC000#16] with inQueue := [⟨0, 9⟩] })).map (fun t => (t.runState, t.irqFlag, t.tick, t.inQueue)) =
      some (.halted, true, 0, [⟨0, 9⟩]) := by decide

/-- D31: the first fetch with no program. -/
theorem test_step_no_program : faultOf (step State.reset) = some (.fetchOutOfRange 0#32) := by decide

/-- `withFetchWord` places the word the next step runs. -/
theorem test_withFetchWord : registers (step (State.reset.withFetchWord 16 0x03FF)) = some (1023, 0, 1) := by decide

/-! ### Image and assembler (V-DEC) -/

theorem test_image : parseImage [0x00#8, 0x01#8, 0x60#8, 0x02#8, 0xC0#8, 0x00#8, 0xB0#8, 0x00#8] =
    .ok ⟨1#16, [0x6002#16, 0xC000#16, 0xB000#16]⟩ := by decide
theorem test_image_truncated : parseImage [0x00#8, 0x01#8, 0x60#8, 0x02#8, 0xC0#8] = .error .truncatedStream := by decide
theorem test_image_unknown : parseImage [0x00#8, 0x01#8, 0x60#8, 0x02#8, 0xD0#8, 0x00#8, 0xB0#8, 0x00#8] =
    .error (.unknownOpcode 0xD000#16) := by decide
theorem test_assemble : (assemble "; c\nSTART: HLT ; stop\n\nINT:\nRST".toList).map (fun p => (p.entry, p.instructions.map encode)) =
    .ok (1, [0x6002#16, 0xC000#16, 0xB000#16]) := by decide
theorem test_assemble_missing : assemble "START: HLT".toList = .error .missingEntryLabel := by decide
theorem test_assemble_duplicate : assemble "START: HLT\nSTART: HLT\nINT: RST".toList = .error .duplicateLabel := by decide
theorem test_assemble_label_operand : assemble "START: LD R1,INT\nINT: RST".toList = .error .invalidOperand := by decide
/-- D31: an image with ENTRY >= N is not produced, and one with N > 1024 is not either. -/
theorem test_image_of_program :
    (Program.mk 1 [.call 2, .hlt]).image = .ok ⟨1#16, [0x6002#16, 0xC000#16]⟩ ∧
    (Program.mk 2 [.call 2, .hlt]).image = .error .operandOutOfRange ∧
    (Program.mk 1 [.call 1024, .hlt]).image = .error .operandOutOfRange ∧
    (Program.mk 1 (List.replicate 1025 .hlt)).image = .error .operandOutOfRange :=
  ⟨by decide, by decide, by decide, by rw [Program.image, if_neg fun h => absurd (List.length_replicate ▸ h.2) (by decide)]⟩
/-- Log 20: a label after the last instruction names the address after it, and such an entry makes no image. -/
theorem test_assemble_trailing_label : assemble "INT: RST\nSTART:".toList = .ok ⟨2, [.call 1, .rst]⟩ ∧
    (Program.mk 2 [.call 1, .rst]).image = .error .operandOutOfRange := by decide
theorem test_assemble_leading_zeros : assemble "START: LD R1,007\nINT: RST".toList = .ok ⟨1, [.call 2, .ldImm .r1 7, .rst]⟩ := by
  decide
theorem test_assemble_literal : assemble "START: ADD R1,1024\nINT: RST".toList =
    .error (.parseError "START: ADD R1,1024".toList) := by decide

/-! ### Witnesses: the hypotheses of each statement, met together -/

/-- The state of `test_step_entry_overflow` and the like: `ADD R1,1` at pc 0, R1 = 11, R2 = 22, a due event. -/
def pending (sp : Nat) : State :=
  { small [0x0001#16] with r1 := 11#32, r2 := 22#32, sp := sp, irqFlag := true, inQueue := [⟨0, 9⟩] }

/-- `small` with a stack pointer. -/
def atSp (sp : Nat) : State := { small [] with sp := sp }

theorem witness_CodecRoundTrip :
    Instr.wellFormed (.addImm .r1 1023) = true ∧ Instr.wellFormed (.addImm .r1 0) = true ∧
    Instr.wellFormed .rst = true ∧ encode (.addImm .r1 1023) = encode (.addImm .r1 1023) := by decide

theorem witness_EncodeOfDecodeClearsIgnoredBits : decode 0x0BFF#16 = .ok (.addReg .r1 .r2) := by decide

theorem witness_IgnoredBitsDoNotMatter :
    decode 0x0BFF#16 = .ok (.addReg .r1 .r2) ∧
    0x0801#16 &&& (Instr.row (.addReg .r1 .r2)).used = 0x0BFF#16 &&& (Instr.row (.addReg .r1 .r2)).used := by decide

theorem witness_DecodeFollowsOpcodeTable :
    decode 0xCABC#16 = .ok .hlt ∧ Instr.row .hlt ∈ opcodeTable ∧ (Instr.row .hlt).covers 0xCABC#16 = true := by decide

/-- Nibbles 12, 13 and 15. -/
theorem witness_UndefinedNibblesAreUnknown :
    (BitVec.extractLsb' 12 4 0xCFFF#16).toNat < 13 ∧ 13 ≤ (BitVec.extractLsb' 12 4 0xD000#16).toNat ∧
    13 ≤ (BitVec.extractLsb' 12 4 0xFFFF#16).toNat := by decide

theorem witness_ImageAdmittedExactly :
    [0x00#8, 0x01#8, 0xC0#8, 0x00#8] = (Image.mk 1#16 [0xC000#16]).bytes ∧ decode 0xC000#16 = .ok .hlt ∧
    parseImage [0x00#8, 0x01#8, 0xC0#8, 0x00#8] = .ok ⟨1#16, [0xC000#16]⟩ := by decide

/-- One word and the first undefined nibble; 1025 words, one more than fit. -/
theorem witness_ImageErrors :
    (∀ w ∈ (Image.mk 1#16 [0xC000#16]).words, ∃ i, decode w = .ok i) ∧ 13 ≤ (BitVec.extractLsb' 12 4 0xD000#16).toNat ∧
    (∀ w ∈ (Image.mk 1#16 (List.replicate 1025 0xC000#16)).words, ∃ i, decode w = .ok i) ∧
    1024 < (Image.mk 1#16 (List.replicate 1025 0xC000#16)).words.length :=
  ⟨by simp; exact ⟨_, rfl⟩, by decide, fun w hw => ⟨.hlt, by rw [List.eq_of_mem_replicate hw]; rfl⟩,
    by rw [List.length_replicate]; decide⟩

theorem witness_LoadLeavesResetState :
    State.load ⟨8, none⟩ [0x00#8, 0x00#8, 0xC0#8, 0x00#8] [(0, 5), (7, -1)] [⟨0, 65⟩] =
      .ok (State.loaded ⟨8, none⟩ 0#16 [0xC000#16] [(0, 5#32), (7, 0xFFFFFFFF#32)] [⟨0, 65⟩]) ∧
    (([(0, 5), (7, -1)] : List (Nat × Int)).map Prod.fst).Nodup := by decide

/-- A divisor of 1 and of -1 in the register form, 1 and 1023 in the immediate form. -/
theorem witness_DivisionCompletes :
    (holding 7 1).r2 ≠ 0#32 ∧ (holding 7 (-1)).r2 ≠ 0#32 ∧ 0 < 1 ∧ 1 < 1024 ∧ 0 < 1023 ∧ 1023 < 1024 := by decide

theorem witness_DivisionByZeroFaults : (holding 7 0).r2 = 0#32 := by decide

theorem witness_AluIntegerLaws :
    1#32 ≠ 0#32 ∧ ¬ (sint 7#32 = -2147483648 ∧ sint 1#32 = -1) ∧ sint 0x80000000#32 = -2147483648 ∧ sint 0xFFFFFFFF#32 = -1 := by
  decide

/-- A form that completes, and DIV by 0, which does not. -/
theorem witness_ArithmeticFrame :
    (∃ t, arithmeticOf (.addImm .r2 5) = some (.add, .r2, .reg .r2, .literal 5#32) ∧ (holding 7 0).runState = .running ∧
      exec (.addImm .r2 5) (holding 7 0) = .next t ∧ t.runState = .running) ∧
    ∃ t, arithmeticOf (.divReg .r2 .r1) = some (.div, .r2, .reg .r1, .reg .r2) ∧
      exec (.divReg .r2 .r1) (holding 7 0) = .next t ∧ t.runState ≠ .running :=
  ⟨⟨_, rfl, rfl, next_intro (by decide), by decide⟩, ⟨_, rfl, next_intro (by decide), by decide⟩⟩

/-- The lowest and the highest address of eight words. -/
theorem witness_LoadsComplete :
    0 < 1024 ∧ 0 < (small []).cfg.memSize ∧ 7 < 1024 ∧ 7 < (small []).cfg.memSize ∧
    uint (State.getReg { small [] with r2 := 7#32 } .r2) < (small []).cfg.memSize := by decide

theorem witness_StoresComplete :
    0 < 1024 ∧ 0 < (small []).cfg.memSize ∧ 7 < 1024 ∧ 7 < (small []).cfg.memSize ∧
    uint (State.getReg { small [] with r2 := 7#32 } .r2) < (small []).cfg.memSize := by decide

/-- The first address above eight words, and the highest of all. -/
theorem witness_AccessOutOfRangeFaults :
    8 < 1024 ∧ (small []).cfg.memSize ≤ 8 ∧ 1023 < 1024 ∧ (small []).cfg.memSize ≤ 1023 ∧
    (small []).cfg.memSize ≤ uint (State.getReg { small [] with r2 := 8#32 } .r2) ∧
    (small []).cfg.memSize ≤ uint (State.getReg { small [] with r2 := 0xFFFFFFFF#32 } .r2) := by decide

theorem witness_LoadFrame :
    (∃ t, exec (.ldImm .r1 7) (small []) = .next t) ∧ ∃ t, exec (.ldReg .r1 .r2) (small []) = .next t := ⟨next_exists (by decide), next_exists (by decide)⟩

/-- A store that completes in each form, and one that faults. -/
theorem witness_StoreFrame :
    (small []).dmem.wf ∧ (small []).runState = .running ∧
    (∃ t, exec (.stImm .r1 7) (small []) = .next t ∧ t.runState = .running) ∧
    (∃ t, exec (.stReg .r1 .r2) (small []) = .next t ∧ t.runState = .running) ∧
    ∃ t, exec (.stImm .r1 8) (small []) = .next t ∧ t.runState ≠ .running :=
  ⟨by decide, rfl, next_with (by decide), next_with (by decide), next_with (by decide)⟩

theorem witness_JumpsComplete : (holding 0 1).getReg .r1 = 0#32 ∧ (holding 0 1).getReg .r2 ≠ 0#32 := by decide

/-- One free word and all of them; one word on the stack and all of them. -/
theorem witness_CallAndReturnComplete :
    (atSp 1).sp ≠ 0 ∧ (atSp 1).sp < (atSp 1).cfg.memSize ∧ (atSp 7).sp ≠ 0 ∧ (atSp 7).sp < (atSp 7).cfg.memSize ∧
    (atSp 6).sp < (atSp 6).cfg.memSize - 1 ∧ (atSp 0).sp < (atSp 0).cfg.memSize - 1 := by decide

theorem witness_InterruptReturnCompletes :
    (atSp 3).sp + 4 < (atSp 3).cfg.memSize ∧ (atSp 0).sp + 4 < (atSp 0).cfg.memSize := by decide

/-- No free word; 0, 1, 2 and 3 words on the stack. -/
theorem witness_StackFaults :
    (atSp 0).sp = 0 ∧ (atSp 7).sp = (atSp 7).cfg.memSize - 1 ∧ (atSp 6).sp + 1 = (atSp 6).cfg.memSize - 1 ∧
    (atSp 5).sp + 2 = (atSp 5).cfg.memSize - 1 ∧ (atSp 4).sp + 3 = (atSp 4).cfg.memSize - 1 := by decide

/-- Each of the five, CALL and RET also where they raise. -/
theorem witness_ControlTransferFrame :
    (∃ t, exec (.jmp 3) (atSp 7) = .next t) ∧ (∃ t, exec (.je .r1 3) (atSp 7) = .next t) ∧
    (∃ t, exec (.call 3) (atSp 7) = .next t) ∧ (∃ t, exec (.call 3) (atSp 0) = .next t) ∧
    (∃ t, exec .ret (atSp 6) = .next t) ∧ (∃ t, exec .ret (atSp 7) = .next t) ∧ ∃ t, exec .hlt (atSp 7) = .next t :=
  ⟨next_exists (by decide), next_exists (by decide), next_exists (by decide), next_exists (by decide), next_exists (by decide), next_exists (by decide), next_exists (by decide)⟩

theorem witness_InterruptReturnFrame :
    (atSp 3).runState = .running ∧ (∃ t, exec .rst (atSp 3) = .next t) ∧
    ∃ t, exec .rst (atSp 4) = .next t ∧ t.runState ≠ .running := ⟨rfl, next_exists (by decide), next_with (by decide)⟩

theorem witness_PushesAndPopsAreInverses : (atSp 2).Inv ∧ 2 ≤ (atSp 2).sp ∧ (atSp 7).Inv ∧ 2 ≤ (atSp 7).sp :=
  ⟨inv_intro (by decide), by decide, inv_intro (by decide), by decide⟩

/-- CALL 3 at the last free word, and a callee that changes both registers. -/
def called : State := stateAfter (exec (.call 3) (atSp 1))
def callee : State := { called with r1 := 1#32, r2 := 2#32, aluOut := 5#32, outBuf := [65] }

theorem witness_StackBalance : (atSp 1).Inv ∧ (atSp 1).sp ≠ 0 ∧ exec (.call 3) (atSp 1) = .next called ∧
    callee.cfg = (atSp 1).cfg ∧ callee.imem = (atSp 1).imem ∧ callee.sp = called.sp ∧
    callee.dmem.read (atSp 1).sp = called.dmem.read (atSp 1).sp ∧ callee.r1 ≠ called.r1 :=
  ⟨inv_intro (by decide), by decide, next_intro (by decide), by decide⟩

theorem witness_InterruptEntryCompletes :
    (pending 3).Inv ∧ 3 ≤ (pending 3).sp ∧ (pending 3).inQueue = ⟨0, 9⟩ :: [] := ⟨inv_intro (by decide), by decide, rfl⟩

/-- No free word, one, and two. -/
theorem witness_InterruptEntryOverflow :
    (pending 0).Inv ∧ (pending 0).sp < 3 ∧ (pending 1).Inv ∧ (pending 1).sp < 3 ∧ 1 ≤ (pending 1).sp ∧
    (pending 2).Inv ∧ (pending 2).sp < 3 ∧ 2 ≤ (pending 2).sp :=
  ⟨inv_intro (by decide), by decide, inv_intro (by decide), by decide, by decide, inv_intro (by decide), by decide, by decide⟩

/-- Interrupt entry with four free words, the trampoline's CALL after it, and a handler that changes both registers and
appends to the output. -/
def entered : State := stateAfter (interruptEntry 0x0001#16 (pending 4))
def trampolined : State := stateAfter (exec (.call 1) entered)
def handler : State := { trampolined with r1 := 1#32, r2 := 2#32, aluOut := 5#32, outBuf := [65], pc := 4#32, tick := 9 }

/-- Room for the three words only, and for the fourth. -/
theorem witness_InterruptFrameLayout : (pending 3).Inv ∧ 3 ≤ (pending 3).sp ∧ (pending 3).inQueue = ⟨0, 9⟩ :: [] ∧
    (pending 4).Inv ∧ 4 ≤ (pending 4).sp ∧ (pending 4).inQueue = ⟨0, 9⟩ :: [] :=
  ⟨inv_intro (by decide), by decide, rfl, inv_intro (by decide), by decide, rfl⟩

theorem witness_InterruptTransparency : (pending 4).Inv ∧ (pending 4).irqFlag = true ∧ 4 ≤ (pending 4).sp ∧
    interruptEntry 0x0001#16 (pending 4) = .next entered ∧ exec (.call 1) entered = .next trampolined ∧
    handler.cfg = trampolined.cfg ∧ handler.sp = trampolined.sp ∧
    (∀ a, (pending 4).sp - 4 < a → a ≤ (pending 4).sp → handler.dmem.read a = trampolined.dmem.read a) ∧
    handler.r1 ≠ trampolined.r1 ∧ handler.r2 ≠ trampolined.r2 :=
  ⟨inv_intro (by decide), by decide, by decide, next_intro (by decide), next_intro (by decide), by decide, by decide,
    fun _ _ _ => rfl, by decide, by decide⟩

theorem witness_StepRunsDecodedInstruction : (small [0x0001#16]).CanStep ∧
    (small [0x0001#16]).imem[uint (small [0x0001#16]).pc]? = some 0x0001#16 ∧ decode 0x0001#16 = .ok (.addImm .r1 1) :=
  ⟨can_intro (by decide), by decide, by decide⟩

/-- Halted; running without and with a pending interrupt; the entry running on, and faulting. -/
theorem witness_AfterExecuteOrder : State.runState { atSp 7 with runState := .halted } ≠ .running ∧
    (atSp 7).runState = .running ∧ (atSp 7).irqFlag = false ∧ (pending 7).runState = .running ∧ (pending 7).irqFlag = true ∧
    (∃ t, interruptEntry 0x0001#16 (pending 7) = .next t ∧ t.runState = .running) ∧
    ∃ t, interruptEntry 0x0001#16 (pending 2) = .next t ∧ t.runState ≠ .running :=
  ⟨by decide, rfl, rfl, rfl, rfl, next_with (by decide), next_with (by decide)⟩

/-- The pc at PROG_LEN; the first undefined nibble at the pc. -/
theorem witness_FetchFaults : (small []).CanStep ∧ (small []).progLen ≤ uint (small []).pc ∧ (small [0xD000#16]).CanStep ∧
    (small [0xD000#16]).imem[uint (small [0xD000#16]).pc]? = some 0xD000#16 ∧ 13 ≤ (BitVec.extractLsb' 12 4 0xD000#16).toNat :=
  ⟨can_intro (by decide), by decide, can_intro (by decide), by decide, by decide⟩

/-- An event due at this very tick, one due at the next, and no event. -/
theorem witness_ScheduleSetsFlagWhenDue :
    (State.inQueue { small [] with tick := 5, inQueue := [⟨5, 1⟩] } = ⟨5, 1⟩ :: [] ∧ (5 : Int) ≤ (5 : Nat)) ∧
    (State.inQueue { small [] with tick := 5, inQueue := [⟨6, 1⟩] } = ⟨6, 1⟩ :: [] ∧ ¬ (6 : Int) ≤ (5 : Nat)) ∧
    (small []).inQueue = [] := by decide

/-- A budget of no iteration, and one of six with six made. -/
theorem witness_BudgetExceededFaults :
    (State.loaded ⟨8, some 0⟩ 0#16 [] [] []).runState = .running ∧ (State.loaded ⟨8, some 0⟩ 0#16 [] [] []).iterations = 0 ∧
    State.runState { State.loaded ⟨8, some 6⟩ 0#16 [] [] [] with iterations := 6 } = .running ∧ 6 ≤ 6 := by decide

theorem witness_HaltedAndFaultedAreTerminal : State.runState { small [] with runState := .halted } ≠ .running ∧
    State.runState ((small []).takeFault .stackOverflow 0#32 none false) ≠ .running := by decide

/-- A second event due in a handler; a flag set with nothing queued. -/
theorem witness_StepStopsOnlyOnInputContract :
    step { small [0x0001#16] with openHandlers := 1, inQueue := [⟨0, 1⟩] } = .refused .inputCollision ∧
    step { small [0x0001#16] with irqFlag := true } = .fault .inputQueueEmpty := ⟨rfl, rfl⟩

theorem witness_RunningStepCompletes : (small [0x0001#16]).Inv ∧ (small [0x0001#16]).CanStep :=
  ⟨inv_intro (by decide), can_intro (by decide)⟩

/-- A step with an interrupt entry in it. -/
theorem witness_StepKeepsInvariant : beforeEntry.Inv ∧ ∃ t, step beforeEntry = .next t :=
  ⟨inv_intro (by decide), next_exists (by decide)⟩

theorem witness_OneInterruptInFlight : beforeEntry.openHandlers ≤ 1 ∧
    (beforeEntry.runState = .running → beforeEntry.irqFlag = false) ∧
    ∃ t, step beforeEntry = .next t ∧ t.openHandlers = 1 :=
  ⟨by decide, fun _ => rfl, next_with (by decide)⟩

theorem witness_ProgramIsImmutable : ∃ t, step beforeEntry = .next t := next_exists (by decide)

theorem witness_OnlyOutAppends : ∃ t, step (small [0xA000#16]) = .next t ∧ t.outBuf = [0] := next_with (by decide)

theorem witness_FaultLeavesOutput : (holding 7 0).runState = .running ∧
    ∃ t, exec (.divImm .r1 0) (holding 7 0) = .next t ∧ t.isFaulted :=
  ⟨rfl, _, next_intro (by decide), ⟨⟨.divisionByZero, 0#32, none, 0, false⟩, by decide⟩⟩

/-- A step that sets the flag, HLT, and one that clears it. -/
theorem witness_InterruptFlagSetByScheduleClearedByEntry :
    (∃ t, step { small [0xC000#16] with inQueue := [⟨0, 9⟩] } = .next t ∧ t.irqFlag = true) ∧
    (State.irqFlag { small [0x0001#16] with irqFlag := true, inQueue := [⟨1, 9⟩] } = true ∧
      ∃ t, step { small [0x0001#16] with irqFlag := true, inQueue := [⟨1, 9⟩] } = .next t ∧ t.irqFlag = false) ∧
    ∃ t, interruptEntry 0x0001#16 (pending 3) = .next t :=
  ⟨next_with (by decide), ⟨rfl, next_with (by decide)⟩, next_exists (by decide)⟩

/-- A step that goes on, and one that halts. -/
theorem witness_TickAdvancesOncePerIteration : beforeEntry.runState = .running ∧
    (∃ t, step beforeEntry = .next t ∧ t.runState = .running) ∧
    (small [0xC000#16]).runState = .running ∧ ∃ t, step (small [0xC000#16]) = .next t ∧ t.runState ≠ .running :=
  ⟨rfl, next_with (by decide), rfl, next_with (by decide)⟩

theorem witness_FaultRecordNamesInstruction : (holding 7 0).runState = .running ∧
    ∃ t, exec (.divImm .r1 0) (holding 7 0) = .next t ∧ t.runState = .faulted ⟨.divisionByZero, 0#32, none, 0, false⟩ :=
  ⟨rfl, next_with (by decide)⟩

/-- One fault of each line of R171's list. -/
theorem witness_OnlyListedFaults : (holding 7 0).Inv ∧ (atSp 0).Inv ∧ (atSp 7).Inv ∧
    faultOf (exec (.divReg .r1 .r2) (holding 7 0)) = some .divisionByZero ∧
    faultOf (exec (.divImm .r1 0) (holding 7 0)) = some .divisionByZero ∧
    faultOf (exec (.call 3) (atSp 0)) = some .stackOverflow ∧ faultOf (exec .ret (atSp 7)) = some .stackUnderflow ∧
    faultOf (exec .rst (atSp 7)) = some .stackUnderflow ∧
    faultOf (exec (.ldImm .r1 8) (atSp 7)) = some (.dataAddressOutOfRange 8#32) ∧
    faultOf (exec (.stReg .r1 .r2) { atSp 7 with r2 := 8#32 }) = some (.dataAddressOutOfRange 8#32) :=
  ⟨inv_intro (by decide), inv_intro (by decide), inv_intro (by decide), by decide⟩

/-- An instruction that leaves the stack pointer, and one that moves it. -/
theorem witness_OnlyStackInstructionsMoveSp : (∃ t, exec (.out .r1) (atSp 7) = .next t) ∧
    ∃ t, exec (.call 3) (atSp 7) = .next t ∧ t.sp ≠ (atSp 7).sp := ⟨next_exists (by decide), next_with (by decide)⟩

theorem witness_ZeroFlagIsCombinational : (holding 0 1).getReg .r1 = (holding 0 2).getReg .r1 ∧
    zeroFlag (holding 0 1) .r1 = true ∧ zeroFlag (holding 0 1) .r2 = false := by decide

theorem witness_AssembledProgramHasTrampoline : ∃ p, assemble "START: HLT\nINT: RST".toList = .ok p :=
  ⟨⟨1, [.call 2, .hlt, .rst]⟩, by decide⟩

/-- The last admitted entry of a program of two words. -/
theorem witness_ProgramImageExactly :
    (∀ i ∈ (Program.mk 1 [.call 1023, .hlt]).instructions, i.wellFormed = true) ∧ 1 < [Instr.call 1023, .hlt].length ∧
    (Program.mk 1 [.call 1023, .hlt]).image = .ok ⟨1#16, [0x63FF#16, 0xC000#16]⟩ ∧
    (Program.mk 1 [.call 1024, .hlt]).image = .error .operandOutOfRange := by decide

theorem witness_AssembledImageIsAdmitted : assemble "START: HLT\nINT: RST".toList = .ok ⟨1, [.call 2, .hlt, .rst]⟩ ∧
    (Program.mk 1 [.call 2, .hlt, .rst]).image = .ok ⟨1#16, [0x6002#16, 0xC000#16, 0xB000#16]⟩ := by decide

end Sys2Proof.Tests
end

section
/-! SUPPORT. The family 10_state.md: the invariant, the frame of the stack pointer and the output buffer, and the output
buffer as something no operation reads. -/

namespace Sys2Proof.Machine

/-! ### The invariant through each part of a step (R100, R107) -/

/-- What load supplies decides whether a run begins with the invariant (R24, R210). -/
theorem State.loaded_inv {cfg : Config} {entry : InsnWord} {imem : List InsnWord} {dmem : Memory}
    {inQueue : List InputEvent} (hc : cfg.wf) (hm : dmem.wf) (hb : ∀ c ∈ dmem, c.1 < cfg.memSize)
    (hp : imem.length ≤ imemWords) (hq : inQueue.Pairwise fun e f => e.scheduledTick ≤ f.scheduledTick) :
    (State.loaded cfg entry imem dmem inQueue).Inv where
  config := hc
  stack := Nat.le_refl _
  memory := hm
  inMemory := hb
  program := hp
  queue := hq
  pending := nofun
  budget := fun b _ => Nat.zero_le b

theorem State.Inv.takeFault {s : State} (h : s.Inv) (f : ExecFault) (pc : Word) (word : Option InsnWord) (inEntry : Bool) :
    (s.takeFault f pc word inEntry).Inv :=
  ⟨h.config, h.stack, h.memory, h.inMemory, h.program, h.queue, h.pending, h.budget⟩

theorem State.Inv.advanceTick {s : State} (h : s.Inv) : (advanceTick s).Inv := by
  constructor <;> simp only [advanceTick_cfg, advanceTick_sp, advanceTick_dmem, State.progLen, advanceTick_imem,
    advanceTick_inQueue, advanceTick_irqFlag, advanceTick_iterations]
  exacts [h.config, h.stack, h.memory, h.inMemory, h.program, h.queue, h.pending, h.budget]

/-- A due event is a queued one. -/
theorem eventDue_queued {s : State} (h : s.eventDue = true) : s.inQueue ≠ [] := by
  intro hq
  simp [State.eventDue, hq] at h

/-- The scheduling step sets the flag only where an event is queued (R107, R180). -/
theorem State.Inv.schedule {s : State} (h : s.Inv) : (schedule s).Inv := by
  unfold Machine.schedule
  split
  · rename_i hd
    exact ⟨h.config, h.stack, h.memory, h.inMemory, h.program, h.queue, fun _ => eventDue_queued hd, h.budget⟩
  · exact h

theorem budgetSpent_eq_false {s : State} :
    s.budgetSpent = false ↔ ∀ b, s.cfg.iterBudget = some b → s.iterations < b := by
  unfold State.budgetSpent
  split <;> simp_all

/-- An iteration started within the budget is counted within it (R108). -/
theorem State.Inv.countIteration {s : State} (h : s.Inv) (hb : ∀ b, s.cfg.iterBudget = some b → s.iterations < b) :
    (countIteration s).Inv :=
  ⟨h.config, h.stack, h.memory, h.inMemory, h.program, h.queue, h.pending, hb⟩

theorem State.Inv.of_bodyKeeps {s t : State} (h : s.Inv) (k : BodyKeeps s t) : t.Inv where
  config := by rw [k.outside.cfg]; exact h.config
  stack := k.stack h.config.1 h.stack
  memory := k.memory h.memory
  inMemory := k.addresses h.memory h.inMemory
  program := by rw [State.progLen, k.outside.imem]; exact h.program
  queue := by rw [k.outside.inQueue]; exact h.queue
  pending := by rw [k.outside.irqFlag, k.outside.inQueue]; exact h.pending
  budget := by rw [k.outside.cfg, k.outside.iterations]; exact h.budget

/-- The three words interrupt entry pushes keep the memory's form and its bound (R178). -/
theorem entered_memory {s : State} (h : s.Inv) (hm : s.sp < s.cfg.memSize) :
    s.entered.dmem.wf ∧ ∀ c ∈ s.entered.dmem, c.1 < s.cfg.memSize := by
  have w1 := Memory.write_wf s.dmem h.memory s.sp s.r1
  have w2 := Memory.write_wf _ w1 (s.sp - 1) s.r2
  have b1 := Memory.write_addresses s.dmem h.memory s.sp _ s.r1 hm h.inMemory
  have b2 := Memory.write_addresses _ w1 (s.sp - 1) _ s.r2 (by omega) b1
  exact ⟨Memory.write_wf _ w2 _ _, Memory.write_addresses _ w2 _ _ _ (by omega) b2⟩

/-- Interrupt entry keeps the invariant, the parameters and the driver's count, completed or raised (R178, R187). -/
theorem interruptEntry_inv {w : InsnWord} {s t : State} (h : s.Inv) (ht : interruptEntry w s = .next t) :
    t.Inv ∧ t.cfg = s.cfg ∧ t.iterations = s.iterations := by
  rcases interruptEntry_cases w s with ⟨e, rest, -, hm, hq, hi⟩ | ⟨-, hi⟩ | ⟨f, l, n, d, hi, hn, hw, hb⟩
  · cases hi.symm.trans ht
    obtain ⟨hw, hb⟩ := entered_memory h hm
    have hrest := (List.pairwise_cons.1 (hq ▸ h.queue)).2
    exact ⟨⟨h.config, Nat.le_trans (Nat.sub_le _ _) h.stack, hw, hb, h.program, hrest, nofun, h.budget⟩, rfl, rfl⟩
  · cases hi.symm.trans ht
  · cases hi.symm.trans ht
    exact ⟨⟨h.config, Nat.le_trans hn h.stack, hw h.memory, hb h.memory h.inMemory, h.program, h.queue, nofun, h.budget⟩,
      rfl, rfl⟩

/-- What follows an instruction in its iteration keeps the invariant, the parameters and the driver's count (R104, R105). -/
theorem afterExecute_inv {w : InsnWord} {s t : State} (h : s.Inv) (ht : afterExecute w s = .next t) :
    t.Inv ∧ t.cfg = s.cfg ∧ t.iterations = s.iterations := by
  rcases afterExecute_cases ht with ⟨-, rfl⟩ | ⟨-, -, rfl⟩ | ⟨-, -, u, hu, rfl⟩
  · exact ⟨h, rfl, rfl⟩
  · exact ⟨h.advanceTick, by simp, by simp⟩
  · obtain ⟨hinv, hcfg, hiter⟩ := interruptEntry_inv h hu
    exact ⟨hinv.advanceTick, by simpa using hcfg, by simpa using hiter⟩

/-- Settles O46, case by case over what a step can answer: each part of the step keeps the invariant, and an iteration is
counted only where the budget was not spent. -/
theorem stepKeepsInvariant : Obligations.StepKeepsInvariant := by
  intro s u h hstep
  rcases step_cases hstep with ⟨-, rfl⟩ | ⟨-, -, rfl⟩ | ⟨can, -, rfl⟩ | ⟨w, e, can, -, -, rfl⟩ |
    ⟨w, i, t, v, can, -, -, hexec, hafter, rfl⟩
  · exact h
  · exact h.takeFault _ _ _ _
  · exact (h.schedule.takeFault _ _ _ _).countIteration (by simpa using budgetSpent_eq_false.1 can.budget)
  · exact (h.schedule.takeFault _ _ _ _).countIteration (by simpa using budgetSpent_eq_false.1 can.budget)
  · have k := exec_keeps hexec
    obtain ⟨hv, hcfg, hiter⟩ := afterExecute_inv (h.schedule.of_bodyKeeps k) hafter
    refine hv.countIteration ?_
    rw [hcfg, hiter, k.outside.cfg, k.outside.iterations, schedule_cfg, schedule_iterations]
    exact budgetSpent_eq_false.1 can.budget

/-- Settles O11: reset is the loaded state with nothing loaded, and every value of R24's table is one of its fields. -/
theorem resetMeetsInvariant : Obligations.ResetMeetsInvariant := by
  have hinv : State.reset.Inv :=
    State.loaded_inv (by decide) ⟨List.Pairwise.nil, nofun⟩ nofun (by decide) List.Pairwise.nil
  exact ⟨hinv, rfl, rfl, rfl, rfl, rfl, rfl, rfl, rfl, rfl, rfl, rfl, rfl, Memory.read_nil, rfl, rfl⟩

/-! ### The zero test (R15) -/

theorem zeroFlag_eq_true {s : State} {r : Reg} : zeroFlag s r = true ↔ s.getReg r = 0#32 := by
  rw [zeroFlag, beq_iff_eq]

/-- Settles O56: the test compares the register's value with 0 and reads nothing else. -/
theorem zeroFlagIsCombinational : Obligations.ZeroFlagIsCombinational := by
  refine ⟨fun s r => zeroFlag_eq_true, fun s t r h => ?_⟩
  rw [Bool.eq_iff_iff, zeroFlag_eq_true, zeroFlag_eq_true, h]

/-! ### What each body leaves of the output buffer and the stack pointer -/

/-- The state a micro-operation ends in, completed or raised. -/
def MicroResult.state {α : Type} : MicroResult α → State
  | .done _ t => t
  | .raised _ t => t

/-- The output buffer and the stack pointer are as they were. -/
structure SameOutputAndSp (s t : State) : Prop where
  outBuf : t.outBuf = s.outBuf
  sp     : t.sp = s.sp

/-- A raised fault sets the run state only (R173): both are those of the state the body ends in. -/
theorem exec_same {i : Instr} {s t : State} (h : exec i s = .next t) : SameOutputAndSp (bodyOf i s).state t := by
  rcases exec_cases h with hb | ⟨f, u, hb, rfl⟩ <;> rw [hb] <;> exact ⟨rfl, rfl⟩

theorem arithReg_same (op : AluOp) (d : Reg) (s : State) : SameOutputAndSp s (arithReg op d s).state := by
  rw [arithReg_eq]
  cases aluResult op s.r1 s.r2 with
  | none => exact ⟨rfl, rfl⟩
  | some v => exact ⟨setReg_outBuf s d v, setReg_sp s d v⟩

theorem arithImm_same (op : AluOp) (d : Reg) (n : Nat) (s : State) : SameOutputAndSp s (arithImm op d n s).state := by
  rw [arithImm_eq]
  cases aluResult op (s.getReg d) (zextW n) with
  | none => exact ⟨rfl, rfl⟩
  | some v => exact ⟨setReg_outBuf s d v, setReg_sp s d v⟩

theorem load_same (r : Reg) (a : Addressing) (s : State) : SameOutputAndSp s (load r a s).state := by
  rw [load_eq]
  split
  · exact ⟨rfl, rfl⟩
  · exact ⟨setReg_outBuf s r _, setReg_sp s r _⟩

theorem store_same (r : Reg) (a : Addressing) (s : State) : SameOutputAndSp s (store r a s).state := by
  rw [store_eq]
  split <;> exact ⟨rfl, rfl⟩

theorem callTo_outBuf (n : Nat) (s : State) : (callTo n s).state.outBuf = s.outBuf := by
  rw [callTo_eq]
  split
  · rfl
  · split <;> rfl

theorem returnFromCall_outBuf (s : State) : (returnFromCall s).state.outBuf = s.outBuf := by
  rw [returnFromCall_eq]
  split
  · rfl
  · split <;> rfl

theorem interruptReturn_outBuf (s : State) : (interruptReturn s).state.outBuf = s.outBuf := by
  rcases interruptReturn_cases s with ⟨-, h⟩ | ⟨f, p, l, r, o, q, n, h, -⟩ <;> rw [h] <;> rfl

/-- Every instruction but OUT, CALL, RET and RST leaves both as they were. -/
theorem bodyOf_same (i : Instr) (s : State) :
    SameOutputAndSp s (bodyOf i s).state ∨ (∃ r, i = .out r) ∨ (∃ n, i = .call n) ∨ i = .ret ∨ i = .rst := by
  cases i with
  | addReg d q => exact .inl (arithReg_same .add d s)
  | addImm d n => exact .inl (arithImm_same .add d n s)
  | subReg d q => exact .inl (arithReg_same .sub d s)
  | subImm d n => exact .inl (arithImm_same .sub d n s)
  | mulReg d q => exact .inl (arithReg_same .mul d s)
  | mulImm d n => exact .inl (arithImm_same .mul d n s)
  | divReg d q => exact .inl (arithReg_same .div d s)
  | divImm d n => exact .inl (arithImm_same .div d n s)
  | jmp n => exact .inl ⟨rfl, rfl⟩
  | je r n => rw [bodyOf, jumpIfZero_eq]; exact .inl ⟨rfl, rfl⟩
  | call n => exact .inr (.inr (.inl ⟨n, rfl⟩))
  | ret => exact .inr (.inr (.inr (.inl rfl)))
  | ldReg r a => exact .inl (load_same r _ s)
  | ldImm r n => exact .inl (load_same r _ s)
  | stReg r a => exact .inl (store_same r _ s)
  | stImm r n => exact .inl (store_same r _ s)
  | out r => exact .inr (.inl ⟨r, rfl⟩)
  | rst => exact .inr (.inr (.inr (.inr rfl)))
  | hlt => exact .inl ⟨rfl, rfl⟩

/-- Settles O55: OUT aside, `bodyOf_same` gives it; OUT changes the latches, the buffer and the pc only. -/
theorem onlyStackInstructionsMoveSp : Obligations.OnlyStackInstructionsMoveSp := by
  intro i s t h
  have hsp := (exec_same h).sp
  rcases bodyOf_same i s with same | ⟨r, rfl⟩ | hstack
  · exact .inl (hsp.trans same.sp)
  · rw [bodyOf, output_eq] at hsp
    exact .inl hsp
  · exact .inr hstack

/-- Only OUT changes the output buffer, and it adds one element at the end (R20, R140). -/
theorem exec_outBuf {i : Instr} {s t : State} (h : exec i s = .next t) :
    t.outBuf = s.outBuf ∨ ∃ r, i = .out r ∧ t.outBuf = s.outBuf ++ [sint (s.getReg r)] := by
  have hout := (exec_same h).outBuf
  rcases bodyOf_same i s with same | ⟨r, rfl⟩ | ⟨n, rfl⟩ | rfl | rfl
  · exact .inl (hout.trans same.outBuf)
  · rw [bodyOf, output_eq] at hout
    exact .inr ⟨r, rfl, hout⟩
  · exact .inl (hout.trans (callTo_outBuf n s))
  · exact .inl (hout.trans (returnFromCall_outBuf s))
  · exact .inl (hout.trans (interruptReturn_outBuf s))

theorem interruptEntry_outBuf {w : InsnWord} {s t : State} (h : interruptEntry w s = .next t) : t.outBuf = s.outBuf := by
  rcases interruptEntry_cases w s with ⟨e, rest, -, -, -, hi⟩ | ⟨-, hi⟩ | ⟨f, l, n, d, hi, -⟩ <;> cases hi.symm.trans h
  · rfl
  · rfl

theorem afterExecute_outBuf {w : InsnWord} {s t : State} (h : afterExecute w s = .next t) : t.outBuf = s.outBuf := by
  rcases afterExecute_cases h with ⟨-, rfl⟩ | ⟨-, -, rfl⟩ | ⟨-, -, u, hu, rfl⟩
  · rfl
  · exact advanceTick_outBuf s
  · exact (advanceTick_outBuf u).trans (interruptEntry_outBuf hu)

/-- The first clause of O49, for a whole step (R20). -/
theorem step_outBuf {s u : State} (h : step s = .next u) :
    u.outBuf = s.outBuf ∨
    ∃ w r n, s.imem[uint s.pc]? = some w ∧ decode w = .ok (.out r) ∧ u.outBuf = s.outBuf ++ [n] := by
  rcases step_cases h with ⟨-, rfl⟩ | ⟨-, -, rfl⟩ | ⟨-, -, rfl⟩ | ⟨w, e, -, -, -, rfl⟩ |
    ⟨w, i, t, v, -, hw, hd, hexec, hafter, rfl⟩
  · exact .inl rfl
  · exact .inl rfl
  · exact .inl (schedule_outBuf s)
  · exact .inl (schedule_outBuf s)
  · have hv := afterExecute_outBuf hafter
    rcases exec_outBuf hexec with ht | ⟨r, rfl, ht⟩
    · exact .inl (by rw [countIteration_outBuf, hv, ht, schedule_outBuf])
    · exact .inr ⟨w, r, _, hw, hd, by rw [countIteration_outBuf, hv, ht, schedule_outBuf]⟩

/-! ### Operations that answer the same from a changed state

`g` is a change of the state; an operation that reads nothing of what `g` changes, and writes nothing of it in a way that `g`
disturbs, answers from the changed state what it answers from the state, changed. -/

/-- A result with its state changed. -/
def MicroResult.mapState {α : Type} (g : State → State) : MicroResult α → MicroResult α
  | .done a t => .done a (g t)
  | .raised f t => .raised f (g t)

/-- A micro-operation answers the same from the changed state. -/
def Micro.Commutes {α : Type} (g : State → State) (m : Micro α) : Prop := ∀ s, m (g s) = (m s).mapState g

/-- An outcome with its next state changed; a fault or refusal of the model stands. -/
abbrev mapNext (g : State → State) (o : Host.Outcome State Fault Refusal) : Host.Outcome State Fault Refusal :=
  onNext o fun t => .next (g t)

/-- A function that answers an outcome answers the same from the changed state. -/
def OutcomeCommutes (g : State → State) (F : State → Host.Outcome State Fault Refusal) : Prop :=
  ∀ s, F (g s) = mapNext g (F s)

theorem Micro.Commutes.andThen {α β : Type} {g : State → State} {m : Micro α} {f : α → Micro β}
    (hm : Micro.Commutes g m) (hf : ∀ a, Micro.Commutes g (f a)) : Micro.Commutes g (m.andThen f) := by
  intro s
  cases h : m s with
  | done a t => rw [andThen_done h, andThen_done (by rw [hm s, h]; rfl), hf a t]
  | raised e t => rw [andThen_raised h, andThen_raised (by rw [hm s, h]; rfl)]; rfl

/-- What follows from the state must not see the change. -/
theorem Micro.Commutes.current {α : Type} {g : State → State} {f : State → Micro α}
    (hf : ∀ s, Micro.Commutes g (f s)) (hg : ∀ s, f (g s) = f s) : Micro.Commutes g (current.andThen f) := by
  intro s
  rw [andThen_done (current_eq _), andThen_done (current_eq _), hg s, hf s s]

theorem Micro.Commutes.raised {α : Type} {g : State → State} {e : ExecFault} :
    Micro.Commutes g (fun t => .raised e t : Micro α) := fun _ => rfl

theorem OutcomeCommutes.onNext {g : State → State} {F G : State → Host.Outcome State Fault Refusal}
    (hF : OutcomeCommutes g F) (hG : OutcomeCommutes g G) : OutcomeCommutes g fun s => onNext (F s) G := by
  intro s
  show Machine.onNext (F (g s)) G = mapNext g (Machine.onNext (F s) G)
  rw [hF s]
  cases F s with
  | next t => exact hG t
  | fault r => rfl
  | refused r => rfl

/-- A next state changed by `f` commutes where `f` does. -/
theorem OutcomeCommutes.next {g f : State → State} (h : ∀ s, f (g s) = g (f s)) : OutcomeCommutes g fun s => .next (f s) :=
  fun s => congrArg Host.Outcome.next (h s)

theorem OutcomeCommutes.ite {g : State → State} {F G : State → Host.Outcome State Fault Refusal} {p : State → Prop}
    [DecidablePred p] (hp : ∀ s, p (g s) ↔ p s) (hF : OutcomeCommutes g F) (hG : OutcomeCommutes g G) :
    OutcomeCommutes g fun s => if p s then F s else G s := by
  intro s
  by_cases h : p s
  · simp only [if_pos h, if_pos ((hp s).2 h)]; exact hF s
  · simp only [if_neg h, if_neg (mt (hp s).1 h)]; exact hG s

/-- An instruction answers the same where its body does and the change leaves what a fault record holds. -/
theorem OutcomeCommutes.execute {g : State → State} {body : Micro Unit} (hb : Micro.Commutes g body)
    (hp : ∀ s, (g s).pc = s.pc) (hw : ∀ s, (g s).currentWord = s.currentWord)
    (ht : ∀ s f pc w b, (g s).takeFault f pc w b = g (s.takeFault f pc w b)) : OutcomeCommutes g (execute body) := by
  intro s
  cases h : body s with
  | done a t => rw [execute_done h, execute_done (by rw [hb s, h]; rfl)]; rfl
  | raised f t =>
    rw [execute_raised h, execute_raised (by rw [hb s, h]; rfl), hp, hw, ht]
    rfl

/-! ### Nothing reads the output buffer (R20) -/

/-- The state with other elements before the output buffer's. -/
abbrev State.after (earlier : List Int) (s : State) : State := { s with outBuf := earlier ++ s.outBuf }

section
variable {earlier : List Int}

/-! The registers, what latches are loaded from, and data addresses. -/

theorem getReg_after (s : State) (r : Reg) : (s.after earlier).getReg r = s.getReg r := by cases r <;> rfl

theorem setReg_after (s : State) (r : Reg) (v : Word) :
    (s.after earlier).setReg r v = (s.setReg r v).after earlier := by cases r <;> rfl

theorem zeroFlag_after (s : State) (r : Reg) : zeroFlag (s.after earlier) r = zeroFlag s r :=
  zeroFlagIsCombinational.2 s _ r (getReg_after s r)

theorem value_after (s : State) (source : LatchSource) : source.value (s.after earlier) = source.value s := by
  cases source with
  | reg r => exact getReg_after s r
  | literal v => rfl

theorem address_after (s : State) (a : Addressing) : a.address (s.after earlier) = a.address s := by
  cases a with
  | absolute n => rfl
  | registerIndirect r => exact congrArg uint (getReg_after s r)
  | stackPush => rfl
  | stackPop => rfl

/-! The micro-operations. -/

theorem memRead_ignores_output (a : Nat) : Micro.Commutes (State.after earlier) (memRead a) := by
  intro s
  rw [memRead_eq a s, apply_ite (MicroResult.mapState _)]
  rfl

theorem memWrite_ignores_output (a : Nat) (v : Word) : Micro.Commutes (State.after earlier) (memWrite a v) := by
  intro s
  rw [memWrite_eq a v s, apply_ite (MicroResult.mapState _)]
  rfl

theorem latchOperands_ignores_output (l r : LatchSource) : Micro.Commutes (State.after earlier) (latchOperands l r) := by
  intro s
  simp only [latchOperands, value_after, MicroResult.mapState]

theorem aluExec_ignores_output (op : AluOp) : Micro.Commutes (State.after earlier) (aluExec op) := by
  intro s
  cases h : aluResult op s.aluL s.aluR <;> simp only [aluExec_eq, h, MicroResult.mapState]

theorem aluOutput_ignores_output : Micro.Commutes (State.after earlier) aluOutput := fun _ => rfl

theorem latchRegister_ignores_output (r : Reg) (v : Word) : Micro.Commutes (State.after earlier) (latchRegister r v) := by
  intro s
  rw [latchRegister_eq, latchRegister_eq, setReg_after]
  rfl

theorem setPc_ignores_output (a : Word) : Micro.Commutes (State.after earlier) (setPc a) := fun _ => rfl

theorem pcNext_ignores_output : Micro.Commutes (State.after earlier) pcNext := fun _ => rfl

theorem setSp_ignores_output (a : Nat) : Micro.Commutes (State.after earlier) (setSp a) := fun _ => rfl

theorem halt_ignores_output : Micro.Commutes (State.after earlier) halt := fun _ => rfl

theorem clearFlag_ignores_output : Micro.Commutes (State.after earlier) clearFlag := fun _ => rfl

theorem closeHandler_ignores_output : Micro.Commutes (State.after earlier) closeHandler := fun _ => rfl

theorem outAppend_ignores_output (n : Int) : Micro.Commutes (State.after earlier) (outAppend n) := by
  intro s
  simp only [outAppend, MicroResult.mapState, List.append_assoc]

theorem throughAlu_ignores_output (source : LatchSource) : Micro.Commutes (State.after earlier) (throughAlu source) :=
  (latchOperands_ignores_output _ _).andThen fun _ => (aluExec_ignores_output _).andThen fun _ => aluOutput_ignores_output

theorem push_ignores_output (v : Word) : Micro.Commutes (State.after earlier) (push v) := by
  refine .current (fun s => ?_) fun s => rfl
  split
  · exact .raised
  · exact (memWrite_ignores_output _ v).andThen fun _ => setSp_ignores_output _

theorem pop_ignores_output : Micro.Commutes (State.after earlier) pop := by
  refine .current (fun s => ?_) fun s => rfl
  split
  · exact .raised
  · exact (setSp_ignores_output _).andThen fun _ => memRead_ignores_output _

theorem pushViaAlu_ignores_output (source : LatchSource) : Micro.Commutes (State.after earlier) (pushViaAlu source) :=
  (throughAlu_ignores_output source).andThen push_ignores_output

/-! The bodies of the instructions, each along its own sequence. -/

/-- The sequence both forms of the arithmetic instructions are, with their own sources (R116, R119). -/
theorem arithmetic_ignores_output (l r : LatchSource) (op : AluOp) (d : Reg) : Micro.Commutes (State.after earlier)
    ((latchOperands l r).andThen fun _ => (aluExec op).andThen fun _ => aluOutput.andThen fun v =>
      (latchRegister d v).andThen fun _ => pcNext) :=
  (latchOperands_ignores_output l r).andThen fun _ => (aluExec_ignores_output op).andThen fun _ =>
  aluOutput_ignores_output.andThen fun v => (latchRegister_ignores_output d v).andThen fun _ => pcNext_ignores_output

theorem jumpIfZero_ignores_output (r : Reg) (n : Nat) : Micro.Commutes (State.after earlier) (jumpIfZero r n) := by
  refine .current (fun s => ?_) fun s =>
    congrArg (fun b : Bool => if b then setPc (zextW n) else pcNext) (zeroFlag_after s r)
  split
  · exact setPc_ignores_output _
  · exact pcNext_ignores_output

theorem callTo_ignores_output (n : Nat) : Micro.Commutes (State.after earlier) (callTo n) :=
  .current (fun _ => (pushViaAlu_ignores_output _).andThen fun _ => setPc_ignores_output _) fun _ => rfl

theorem returnFromCall_ignores_output : Micro.Commutes (State.after earlier) returnFromCall :=
  pop_ignores_output.andThen setPc_ignores_output

theorem load_ignores_output (r : Reg) (a : Addressing) : Micro.Commutes (State.after earlier) (load r a) := by
  refine .current (fun s => ?_) fun s => by simp only [address_after]
  exact (memRead_ignores_output _).andThen fun v => (latchRegister_ignores_output r v).andThen fun _ => pcNext_ignores_output

theorem store_ignores_output (r : Reg) (a : Addressing) : Micro.Commutes (State.after earlier) (store r a) := by
  refine (throughAlu_ignores_output _).andThen fun _ => .current (fun s => ?_) fun s => by simp only [address_after]
  exact (memWrite_ignores_output _ _).andThen fun _ => pcNext_ignores_output

theorem output_ignores_output (r : Reg) : Micro.Commutes (State.after earlier) (output r) :=
  (throughAlu_ignores_output _).andThen fun _ => (outAppend_ignores_output _).andThen fun _ => pcNext_ignores_output

theorem interruptReturn_ignores_output : Micro.Commutes (State.after earlier) interruptReturn :=
  pop_ignores_output.andThen fun _ => pop_ignores_output.andThen fun _ =>
  (throughAlu_ignores_output _).andThen fun _ => (setPc_ignores_output _).andThen fun _ =>
  pop_ignores_output.andThen fun _ => (latchRegister_ignores_output _ _).andThen fun _ =>
  pop_ignores_output.andThen fun _ => (latchRegister_ignores_output _ _).andThen fun _ =>
  closeHandler_ignores_output

theorem entryFrame_ignores_output : Micro.Commutes (State.after earlier) entryFrame :=
  clearFlag_ignores_output.andThen fun _ => (pushViaAlu_ignores_output _).andThen fun _ =>
  (pushViaAlu_ignores_output _).andThen fun _ =>
  .current (fun _ => (pushViaAlu_ignores_output _).andThen fun _ => setPc_ignores_output _) fun _ => rfl

theorem bodyOf_ignores_output (i : Instr) : Micro.Commutes (State.after earlier) (bodyOf i) := by
  cases i with
  | addReg d q => exact arithmetic_ignores_output _ _ .add d
  | addImm d n => exact arithmetic_ignores_output _ _ .add d
  | subReg d q => exact arithmetic_ignores_output _ _ .sub d
  | subImm d n => exact arithmetic_ignores_output _ _ .sub d
  | mulReg d q => exact arithmetic_ignores_output _ _ .mul d
  | mulImm d n => exact arithmetic_ignores_output _ _ .mul d
  | divReg d q => exact arithmetic_ignores_output _ _ .div d
  | divImm d n => exact arithmetic_ignores_output _ _ .div d
  | jmp n => exact setPc_ignores_output _
  | je r n => exact jumpIfZero_ignores_output r n
  | call n => exact callTo_ignores_output n
  | ret => exact returnFromCall_ignores_output
  | ldReg r a => exact load_ignores_output r _
  | ldImm r n => exact load_ignores_output r _
  | stReg r a => exact store_ignores_output r _
  | stImm r n => exact store_ignores_output r _
  | out r => exact output_ignores_output r
  | rst => exact interruptReturn_ignores_output
  | hlt => exact halt_ignores_output

/-! The parts of a step (R100, R107). -/

theorem exec_ignores_output (i : Instr) : OutcomeCommutes (State.after earlier) (exec i) := by
  rw [funext (exec_eq_execute i)]
  exact .execute (bodyOf_ignores_output i) (fun _ => rfl) (fun _ => rfl) fun _ _ _ _ _ => rfl

theorem interruptEntry_ignores_output (w : InsnWord) : OutcomeCommutes (State.after earlier) (interruptEntry w) := by
  intro s
  have hg := entryFrame_ignores_output (earlier := earlier) s
  cases h : entryFrame s with
  | raised f t => rw [h] at hg; rw [interruptEntry_raised w h, interruptEntry_raised w hg]; rfl
  | done a t =>
    rw [h] at hg
    simp only [interruptEntry, h, hg, MicroResult.mapState, inputTake]
    cases t.inQueue <;> rfl

theorem advanceTick_after (s : State) : advanceTick (s.after earlier) = (advanceTick s).after earlier := by
  rw [advanceTick, advanceTick, apply_ite (State.after earlier)]

theorem schedule_after (s : State) : schedule (s.after earlier) = (schedule s).after earlier := by
  rw [schedule, schedule, apply_ite (State.after earlier)]
  rfl

theorem afterExecute_ignores_output (w : InsnWord) : OutcomeCommutes (State.after earlier) (afterExecute w) := by
  have entryOrNot : OutcomeCommutes (State.after earlier) fun s => if s.irqFlag then interruptEntry w s else .next s :=
    .ite (fun _ => .rfl) (interruptEntry_ignores_output w) (.next fun _ => rfl)
  exact .ite (fun _ => .rfl) (entryOrNot.onNext (.next advanceTick_after)) (.next fun _ => rfl)

theorem iteration_ignores_output : OutcomeCommutes (State.after earlier) iteration := by
  intro s
  have hg : fetch (s.after earlier) = fetch s := rfl
  cases hf : fetch s with
  | error e => simp only [iteration, hg, hf]; rfl
  | ok w =>
    cases hd : decode w with
    | error e => simp only [iteration, hg, hf, hd]; rfl
    | ok i =>
      simp only [iteration, hg, hf, hd]
      exact (exec_ignores_output i).onNext (afterExecute_ignores_output w) s

theorem step_ignores_output : OutcomeCommutes (State.after earlier) step := by
  have scheduled : OutcomeCommutes (State.after earlier) fun s => iteration (schedule s) := fun s =>
    (congrArg iteration (schedule_after s)).trans (iteration_ignores_output (schedule s))
  have inBudget : OutcomeCommutes (State.after earlier) fun s =>
      if s.collides then .refused .inputCollision else onNext (iteration (schedule s)) fun t => .next (countIteration t) :=
    .ite (fun _ => .rfl) (fun _ => rfl) (scheduled.onNext (.next fun _ => rfl))
  exact .ite (fun _ => .rfl) (.ite (fun _ => .rfl) (.next fun _ => rfl) inBudget) (.next fun _ => rfl)

end

/-- Settles O49: the first clause is `step_outBuf`; elements put before the buffer pass through every operation. -/
theorem onlyOutAppends : Obligations.OnlyOutAppends :=
  ⟨fun _ _ => step_outBuf, fun i _ s => exec_ignores_output i s, fun _ s => step_ignores_output s⟩

/-! ### The assembler's trampoline (R90, R92) -/

/-- What an assembled program is made of: pass 3's table, the two mandatory labels, and passes 4 and 5 over the lines. -/
theorem assemble_ok {text : List Char} {p : Program} (h : assemble text = .ok p) :
    ∃ labels lines handler, extractLabels (vectorLine :: normalize text) 0 [] = .ok (labels, lines) ∧
      labels.find startName = some p.entry ∧ labels.find intName = some handler ∧
      resolveAndParse labels lines = .ok p.instructions := by
  unfold assemble at h
  split at h
  · cases h
  · rename_i labels lines hx
    split at h
    · rename_i entry handler hs hi
      cases hr : resolveAndParse labels lines with
      | error e => rw [hr] at h; cases h
      | ok is => rw [hr] at h; cases h; exact ⟨labels, lines, handler, hx, hs, hi, hr⟩
    · cases h

/-- The vector line is the first retained line, and no label is bound to its address. -/
theorem extractLabels_vector {rest : List (List Char)} {labels : Labels} {lines : List SourceLine}
    (h : extractLabels (vectorLine :: rest) 0 [] = .ok (labels, lines)) :
    (∃ more, lines = ⟨vectorLine, vectorLine⟩ :: more) ∧ ∀ c ∈ labels, 1 ≤ c.2 := by
  rw [extractLabels_vectorLine] at h
  cases hr : extractLabels rest 1 [] with
  | error e => rw [hr] at h; cases h
  | ok r => rw [hr] at h; cases h; exact ⟨⟨r.2, rfl⟩, extractLabels_ge hr (Nat.le_refl _) nofun⟩

/-- Passes 4 and 5 make the vector line the CALL of the address `INT` is bound to. -/
theorem resolveAndParse_vector {labels : Labels} {more : List SourceLine} {is : List Instr} {handler : Nat}
    (hi : labels.find intName = some handler)
    (h : resolveAndParse labels (⟨vectorLine, vectorLine⟩ :: more) = .ok is) : is[0]? = some (.call handler) := by
  unfold resolveAndParse at h
  split at h
  · cases h
  · rename_i clauses hc
    rw [eachLine_ok] at hc h
    cases hc with
    | cons hfirst _ =>
      rw [resolve_vectorLine hi] at hfirst
      cases hfirst
      cases h with
      | cons hparse _ => rw [parseClause_call] at hparse; cases hparse; rfl

/-- Settles O57: the vector line takes address 0, so every label is bound at 1 or above. -/
theorem assembledProgramHasTrampoline : Obligations.AssembledProgramHasTrampoline := by
  intro text p h
  obtain ⟨labels, lines, handler, hx, hs, hi, hr⟩ := assemble_ok h
  obtain ⟨⟨more, rfl⟩, hge⟩ := extractLabels_vector hx
  exact ⟨labels, _, handler, hx, hs, hge _ (Labels.find_mem hs), hi, hge _ (Labels.find_mem hi), resolveAndParse_vector hi hr⟩

end Sys2Proof.Machine
end

section
/-! SUPPORT. The family 20_memory.md: program images, data accesses in and out of range, the stack's two operations as
inverses, and instruction memory as something no step writes. -/

namespace Sys2Proof.Machine

/-! ### Program images (R42, R86, R87) -/

/-- The words read are the big-endian words of the stream, and each of them decodes (R42, R87). -/
theorem readWords_ok {bytes : List Byte} {ws : List InsnWord} (h : readWords bytes = .ok ws) :
    bytes = ws.flatMap bytesOfWord ∧ ∀ w ∈ ws, ∃ i, decode w = .ok i := by
  induction bytes using readWords.induct generalizing ws with
  | case1 => cases h; exact ⟨rfl, nofun⟩
  | case2 b => cases h
  | case3 hi lo rest e he => rw [readWords, he] at h; cases h
  | case4 hi lo rest i hd ih =>
    rw [readWords, hd] at h
    cases hr : readWords rest with
    | error e => rw [hr] at h; cases h
    | ok vs =>
      rw [hr] at h
      cases h
      obtain ⟨hbytes, hdecode⟩ := ih hr
      exact ⟨by rw [List.flatMap_cons, bytesOfWord_wordOfBytes, ← hbytes]; rfl,
        List.forall_mem_cons.2 ⟨⟨i, hd⟩, hdecode⟩⟩

/-- An image is its entry word and then its words, as many as instruction memory holds (R86, D31). -/
theorem parseImage_eq_ok {bytes : List Byte} {image : Image} :
    parseImage bytes = .ok image ↔ ∃ rest, bytes = bytesOfWord image.entry ++ rest ∧
      readWords rest = .ok image.words ∧ image.words.length ≤ imemWords := by
  constructor
  · intro h
    match bytes with
    | [] => cases h
    | [_] => cases h
    | hi :: lo :: rest =>
      rw [parseImage] at h
      split at h
      · cases h
      · rename_i ws hr
        split at h
        · cases h
        · rename_i hlen
          cases h
          exact ⟨rest, by rw [bytesOfWord_wordOfBytes]; rfl, hr, Nat.le_of_not_lt hlen⟩
  · rintro ⟨rest, rfl, hr, hlen⟩
    rw [bytesOfWord_append, parseImage, hr, wordOfBytes_halves]
    exact if_neg (Nat.not_lt.2 hlen)

/-- Settles O8: the image's words are the rest of the bytes, read word by word. -/
theorem imageAdmittedExactly : Obligations.ImageAdmittedExactly := by
  intro bytes image
  rw [parseImage_eq_ok]
  constructor
  · rintro ⟨rest, rfl, hr, hlen⟩
    obtain ⟨rfl, hdecode⟩ := readWords_ok hr
    exact ⟨rfl, hdecode, hlen⟩
  · rintro ⟨rfl, hdecode, hlen⟩
    exact ⟨_, rfl, readWords_words _ hdecode, hlen⟩

/-! ### Data accesses (R44, R45) -/

section
variable {r : Reg} {a : Addressing} {s t : State}

/-- LD at or above MEM_SIZE raises before it writes anything (R44). -/
theorem load_outOfRange {address : Word} (ha : a.address s = uint address) (h : s.cfg.memSize ≤ uint address) :
    load r a s = .raised (.dataAddressOutOfRange address) s := by
  rw [load_eq, ha, if_pos h, BitVec.ofNat_toNat, BitVec.setWidth_eq]

/-- ST at or above MEM_SIZE raises after its value has passed the ALU (R45, R50). -/
theorem store_outOfRange {address : Word} (ha : a.address s = uint address) (h : s.cfg.memSize ≤ uint address) :
    store r a s = .raised (.dataAddressOutOfRange address) (s.passed (s.getReg r)) := by
  rw [store_eq, ha, if_pos h, BitVec.ofNat_toNat, BitVec.setWidth_eq]

/-- Everything ST can answer: one word stored, or the fault taken (R45, R173). -/
theorem execute_store_cases (h : execute (store r a) s = .next t) :
    t = { s.passed (s.getReg r) with dmem := s.dmem.write (a.address s) (s.getReg r), pc := s.pc + 1#32 } ∨
    ∃ f, t = (s.passed (s.getReg r)).takeFault f s.pc s.currentWord false := by
  by_cases hm : s.cfg.memSize ≤ a.address s
  · rw [execute_raised (by rw [store_eq, if_pos hm])] at h
    cases h
    exact .inr ⟨_, rfl⟩
  · rw [execute_done (by rw [store_eq, if_neg hm])] at h
    cases h
    exact .inl rfl

end

/-- Settles O20: both forms of LD and ST raise at the address their addressing computes. -/
theorem accessOutOfRangeFaults : Obligations.AccessOutOfRangeFaults := by
  intro r a n s
  refine ⟨fun hn h => ?_, fun h => ⟨exec_raised (load_outOfRange rfl h), exec_raised (store_outOfRange rfl h)⟩⟩
  have h' : s.cfg.memSize ≤ uint (zextW n) := by rwa [uint_zextW n hn]
  exact ⟨exec_raised (load_outOfRange rfl h'), exec_raised (store_outOfRange rfl h')⟩

/-- Settles O22: both forms are `store`, which stores one word or takes its fault in the state after the ALU pass. -/
theorem storeFrame : Obligations.StoreFrame := by
  intro r a n i addressing s t hi hwf hrun h
  have hstore : execute (store r addressing) s = .next t := by
    rw [← h, exec_eq_execute]
    rcases hi with ⟨rfl, rfl⟩ | ⟨rfl, rfl⟩ <;> rfl
  rcases execute_store_cases hstore with rfl | ⟨f, rfl⟩
  · exact ⟨fun q => by cases q <;> rfl, fun b hb => Memory.read_write_other _ _ _ _ hb,
      fun _ => Memory.read_write_same _ _ _ hwf, fun hstopped => absurd hrun hstopped, rfl, rfl, rfl,
      ⟨rfl, rfl, rfl, rfl, rfl, rfl, rfl⟩⟩
  · exact ⟨fun q => by cases q <;> rfl, fun _ _ => rfl, nofun, fun _ _ => rfl, rfl, rfl, rfl,
      ⟨rfl, rfl, rfl, rfl, rfl, rfl, rfl⟩⟩

/-! ### Pushes and pops (R47, R48, R49) -/

/-- `Pop` of a known word: the pointer moves onto it, and it stays in memory (R48). -/
theorem pop_word {s : State} {a : Nat} {v : Word} (ha : s.sp + 1 = a) (hm : a < s.cfg.memSize)
    (hv : s.dmem.read a = v) : pop s = .done v { s with sp := a } := by
  subst ha hv
  exact pop_some s (by omega)

/-- Settles O31: the two pushes write two different words, so each pop reads the word its push wrote. -/
theorem pushesAndPopsAreInverses : Obligations.PushesAndPopsAreInverses := by
  intro v w s inv h2
  have hm : s.sp < s.cfg.memSize := by have := inv.stack; have := inv.config.1; omega
  have hne : s.sp ≠ s.sp - 1 := by omega
  have newer : ((s.dmem.write s.sp v).write (s.sp - 1) w).read (s.sp - 1) = w :=
    Memory.read_write_same _ _ _ (Memory.write_wf _ inv.memory _ _)
  have older : ((s.dmem.write s.sp v).write (s.sp - 1) w).read s.sp = v := by
    rw [Memory.read_write_other _ _ _ _ hne, Memory.read_write_same _ _ _ inv.memory]
  refine ⟨_, _, _, _, push_room v s (by omega) hm, push_room w _ (by dsimp only; omega) (by dsimp only; omega),
    pop_word (by dsimp only; omega) (by dsimp only; omega) newer, pop_word (by dsimp only; omega) hm older,
    Nat.sub_sub s.sp 1 1, rfl, fun a ha ha' => ?_⟩
  exact (Memory.read_write_other _ _ _ _ ha').trans (Memory.read_write_other _ _ _ _ ha)

/-! ### Instruction memory (R22, R56) -/

/-- The program and the parameters are as they were. -/
structure SameProgram (s t : State) : Prop where
  imem  : t.imem = s.imem
  entry : t.entry = s.entry
  cfg   : t.cfg = s.cfg

theorem SameProgram.trans {s t u : State} (h : SameProgram s t) (k : SameProgram t u) : SameProgram s u :=
  ⟨k.imem.trans h.imem, k.entry.trans h.entry, k.cfg.trans h.cfg⟩

theorem schedule_sameProgram (s : State) : SameProgram s (schedule s) :=
  ⟨schedule_imem s, schedule_entry s, schedule_cfg s⟩

theorem advanceTick_sameProgram (s : State) : SameProgram s (advanceTick s) :=
  ⟨advanceTick_imem s, advanceTick_entry s, advanceTick_cfg s⟩

theorem exec_sameProgram {i : Instr} {s t : State} (h : exec i s = .next t) : SameProgram s t := by
  have k := (exec_keeps h).outside
  exact ⟨k.imem, k.entry, k.cfg⟩

theorem interruptEntry_sameProgram {w : InsnWord} {s t : State} (h : interruptEntry w s = .next t) : SameProgram s t := by
  rcases interruptEntry_cases w s with ⟨e, rest, -, -, -, hi⟩ | ⟨-, hi⟩ | ⟨f, l, n, d, hi, -⟩ <;> cases hi.symm.trans h
  · exact ⟨rfl, rfl, rfl⟩
  · exact ⟨rfl, rfl, rfl⟩

theorem afterExecute_sameProgram {w : InsnWord} {s t : State} (h : afterExecute w s = .next t) : SameProgram s t := by
  rcases afterExecute_cases h with ⟨-, rfl⟩ | ⟨-, -, rfl⟩ | ⟨-, -, u, hu, rfl⟩
  · exact ⟨rfl, rfl, rfl⟩
  · exact advanceTick_sameProgram s
  · exact (interruptEntry_sameProgram hu).trans (advanceTick_sameProgram u)

theorem step_sameProgram {s u : State} (h : step s = .next u) : SameProgram s u := by
  rcases step_cases h with ⟨-, rfl⟩ | ⟨-, -, rfl⟩ | ⟨-, -, rfl⟩ | ⟨w, e, -, -, -, rfl⟩ |
    ⟨w, i, t, v, -, -, -, hexec, hafter, rfl⟩
  · exact ⟨rfl, rfl, rfl⟩
  · exact ⟨rfl, rfl, rfl⟩
  · exact (schedule_sameProgram s).trans ⟨rfl, rfl, rfl⟩
  · exact (schedule_sameProgram s).trans ⟨rfl, rfl, rfl⟩
  · have toAfter := (exec_sameProgram hexec).trans (afterExecute_sameProgram hafter)
    exact ((schedule_sameProgram s).trans toAfter).trans ⟨rfl, rfl, rfl⟩

/-- Settles O48: every part of a step keeps the program, and fetch reads instruction memory and the pc only. -/
theorem programIsImmutable : Obligations.ProgramIsImmutable := by
  refine ⟨fun s t h => ?_, fun s m => rfl⟩
  obtain ⟨himem, hentry, hcfg⟩ := step_sameProgram h
  exact ⟨himem, hentry, hcfg⟩

end Sys2Proof.Machine
end

section
/-! SUPPORT. The family 30_encoding.md: the fields of an encoded word, the round trip of the codec, the representable
instructions counted form by form, the opcode table, and program images. -/

namespace Sys2Proof

/-! ### The bits of Formats O and Z (R74, R76, R83) -/

theorem encodeO_bit (op : BitVec 4) (q : Reg) (k : Nat) :
    (encodeO op q).getLsbD k =
      if k < 11 then (0#11).getLsbD k
      else if k - 11 < 1 then (selOf q).getLsbD (k - 11) else op.getLsbD (k - 11 - 1) := by
  show (op ++ selOf q ++ 0#11 : BitVec (4 + 1 + 11)).getLsbD k = _
  rw [BitVec.getLsbD_append, BitVec.getLsbD_append]

theorem encodeZ_bit (op : BitVec 4) (k : Nat) :
    (encodeZ op).getLsbD k = if k < 12 then (0#12).getLsbD k else op.getLsbD (k - 12) :=
  BitVec.getLsbD_append

/-! ### The fields of a word from its bits (R71 to R76, R79) -/

theorem ofNat_immField (w : InsnWord) : BitVec.ofNat 10 (immField w) = w.extractLsb' 0 10 := by
  rw [immField, BitVec.ofNat_toNat, BitVec.setWidth_eq]

theorem opField_eq_of_bits {w : InsnWord} {op : BitVec 4} (h : ∀ k < 4, w.getLsbD (12 + k) = op.getLsbD k) :
    opField w = op := by
  apply BitVec.eq_of_getLsbD_eq
  intro k hk
  rw [opField, BitVec.getLsbD_extractLsb', decide_eq_true hk, Bool.true_and, h k hk]

theorem immField_eq_of_bits {w : InsnWord} {n : Nat} (hn : n < immLimit)
    (h : ∀ k < 10, w.getLsbD k = (BitVec.ofNat 10 n).getLsbD k) : immField w = n := by
  have hw : w.extractLsb' 0 10 = BitVec.ofNat 10 n := by
    apply BitVec.eq_of_getLsbD_eq
    intro k hk
    rw [BitVec.getLsbD_extractLsb', decide_eq_true hk, Bool.true_and, Nat.zero_add, h k hk]
  rw [immField, hw, BitVec.toNat_ofNat, Nat.mod_eq_of_lt hn]

@[simp] theorem selOf_regOfBit (b : Bool) : selOf (regOfBit b) = BitVec.ofBool b := by cases b <;> rfl

@[simp] theorem regOfBit_selOf (r : Reg) : regOfBit ((selOf r).getLsbD 0) = r := by cases r <;> rfl

/-! ### The fields of an encoded word (R83) -/

section
variable (op : BitVec 4) (d q : Reg)

@[simp] theorem opField_encodeAReg : opField (encodeAReg op d q) = op :=
  opField_eq_of_bits fun k hk => by rw [encodeAReg_bit]; interval_cases k <;> rfl

@[simp] theorem opField_encodeAImm (n : Nat) : opField (encodeAImm op d n) = op :=
  opField_eq_of_bits fun k hk => by rw [encodeAImm_bit]; interval_cases k <;> rfl

@[simp] theorem opField_encodeJ (t : Nat) : opField (encodeJ op t) = op :=
  opField_eq_of_bits fun k hk => by rw [encodeJ_bit]; interval_cases k <;> rfl

@[simp] theorem opField_encodeT (t : Nat) : opField (encodeT op q t) = op :=
  opField_eq_of_bits fun k hk => by rw [encodeT_bit]; interval_cases k <;> rfl

@[simp] theorem opField_encodeO : opField (encodeO op q) = op :=
  opField_eq_of_bits fun k hk => by rw [encodeO_bit]; interval_cases k <;> rfl

@[simp] theorem opField_encodeZ : opField (encodeZ op) = op :=
  opField_eq_of_bits fun k hk => by rw [encodeZ_bit]; interval_cases k <;> rfl

@[simp] theorem regOfBit_bit11_encodeT (t : Nat) : regOfBit (bit11 (encodeT op q t)) = q := by
  rw [bit11, encodeT_bit]; exact regOfBit_selOf q

@[simp] theorem regOfBit_bit11_encodeO : regOfBit (bit11 (encodeO op q)) = q := by
  rw [bit11, encodeO_bit]; exact regOfBit_selOf q

variable {n : Nat} (hn : n < immLimit)
include hn

theorem immField_encodeJ : immField (encodeJ op n) = n :=
  immField_eq_of_bits hn fun k hk => by rw [encodeJ_bit, if_pos hk]

theorem immField_encodeT : immField (encodeT op q n) = n :=
  immField_eq_of_bits hn fun k hk => by rw [encodeT_bit, if_pos hk]

theorem immField_encodeAImm : immField (encodeAImm op d n) = n :=
  immField_eq_of_bits hn fun k hk => by rw [encodeAImm_bit, if_pos hk]

end

/-- Bit 11 is 1, so the register form is read, and its two selectors are the registers' (R72, R78). -/
@[simp] theorem decodeFormA_encodeAReg (regForm : Reg → Reg → Instr) (immForm : Reg → Nat → Instr) (op : BitVec 4)
    (d q : Reg) : decodeFormA regForm immForm (encodeAReg op d q) = regForm d q := by
  have h11 : bit11 (encodeAReg op d q) = true := by rw [bit11, encodeAReg_bit]; rfl
  have h10 : bit10 (encodeAReg op d q) = (selOf d).getLsbD 0 := by rw [bit10, encodeAReg_bit]; rfl
  have h0 : bit0 (encodeAReg op d q) = (selOf q).getLsbD 0 := by rw [bit0, encodeAReg_bit]; rfl
  rw [decodeFormA, if_pos h11, h10, h0, regOfBit_selOf, regOfBit_selOf]

/-- Bit 11 is 0, so the immediate form is read (R72, R79). -/
theorem decodeFormA_encodeAImm (regForm : Reg → Reg → Instr) (immForm : Reg → Nat → Instr) (op : BitVec 4) (d : Reg)
    {n : Nat} (hn : n < immLimit) : decodeFormA regForm immForm (encodeAImm op d n) = immForm d n := by
  have h11 : bit11 (encodeAImm op d n) = false := by rw [bit11, encodeAImm_bit]; rfl
  have h10 : bit10 (encodeAImm op d n) = (selOf d).getLsbD 0 := by rw [bit10, encodeAImm_bit]; rfl
  rw [decodeFormA, h11, if_neg Bool.false_ne_true, h10, regOfBit_selOf, immField_encodeAImm op d hn]

/-! ### The round trip (R84) -/

theorem immediate_lt {i : Instr} {n : Nat} (h : i.wellFormed = true) (hn : i.immediate = some n) : n < immLimit := by
  rw [Instr.wellFormed, hn] at h
  exact of_decide_eq_true h

/-- Decoding takes the opcode from the top nibble and the operands from the fields that the form's encoding wrote (R84). -/
theorem decode_encode {i : Instr} (h : i.wellFormed = true) : decode (encode i) = .ok i := by
  have hn := fun n => immediate_lt (n := n) h
  cases i with
  | addReg d q => simp [encode, decode]
  | addImm d n => simp [encode, decode, decodeFormA_encodeAImm _ _ _ d (hn n rfl)]
  | subReg d q => simp [encode, decode]
  | subImm d n => simp [encode, decode, decodeFormA_encodeAImm _ _ _ d (hn n rfl)]
  | mulReg d q => simp [encode, decode]
  | mulImm d n => simp [encode, decode, decodeFormA_encodeAImm _ _ _ d (hn n rfl)]
  | divReg d q => simp [encode, decode]
  | divImm d n => simp [encode, decode, decodeFormA_encodeAImm _ _ _ d (hn n rfl)]
  | jmp t => simp [encode, decode, immField_encodeJ _ (hn t rfl)]
  | je r t => simp [encode, decode, immField_encodeT _ r (hn t rfl)]
  | call t => simp [encode, decode, immField_encodeJ _ (hn t rfl)]
  | ret => simp [encode, decode]
  | ldReg r a => simp [encode, decode]
  | ldImm r n => simp [encode, decode, decodeFormA_encodeAImm _ _ _ r (hn n rfl)]
  | stReg r a => simp [encode, decode]
  | stImm r n => simp [encode, decode, decodeFormA_encodeAImm _ _ _ r (hn n rfl)]
  | out r => simp [encode, decode]
  | rst => simp [encode, decode]
  | hlt => simp [encode, decode]

theorem encode_injective {i j : Instr} (hi : i.wellFormed = true) (hj : j.wellFormed = true) (h : encode i = encode j) :
    i = j :=
  Except.ok.inj ((decode_encode hi).symm.trans ((congrArg decode h).trans (decode_encode hj)))

/-! ### The representable instructions, form by form (R77, R84)

Each form is a constructor applied to every tuple of operands its format holds. -/

/-- The register file (R10). -/
def regs : List Reg := [.r1, .r2]

/-- The operands of a form with two registers (R72). -/
def regPairs : List (Reg × Reg) := regs ×ˢ regs

/-- What 10 bits hold (R79). -/
def numbers : List Nat := List.range immLimit

/-- The operands of a form with a register and a number (R72, R73). -/
def regNumberPairs : List (Reg × Nat) := regs ×ˢ numbers

@[simp] theorem mem_regs (r : Reg) : r ∈ regs := by cases r <;> decide
@[simp] theorem mem_numbers {n : Nat} : n ∈ numbers ↔ n < immLimit := List.mem_range
@[simp] theorem mem_regPairs (d q : Reg) : (d, q) ∈ regPairs := List.mem_product.2 ⟨mem_regs d, mem_regs q⟩
@[simp] theorem mem_regNumberPairs {d : Reg} {n : Nat} : (d, n) ∈ regNumberPairs ↔ n < immLimit := by
  simp [regNumberPairs]

@[simp] theorem nodup_regs : regs.Nodup := by decide
@[simp] theorem nodup_numbers : numbers.Nodup := List.nodup_range
@[simp] theorem nodup_regPairs : regPairs.Nodup := nodup_regs.product nodup_regs
@[simp] theorem nodup_regNumberPairs : regNumberPairs.Nodup := nodup_regs.product nodup_numbers

@[simp] theorem length_regs : regs.length = 2 := rfl
@[simp] theorem length_numbers : numbers.length = 1024 := List.length_range
@[simp] theorem length_regPairs : regPairs.length = 4 := rfl
@[simp] theorem length_regNumberPairs : regNumberPairs.length = 2048 := by
  rw [regNumberPairs, List.length_product, length_regs, length_numbers]

/-- The representable instructions, one list for each row of the opcode table, in its order. -/
def representableByForm : List (List Instr) :=
  [regPairs.map fun p => .addReg p.1 p.2, regNumberPairs.map fun p => .addImm p.1 p.2,
   regPairs.map fun p => .subReg p.1 p.2, regNumberPairs.map fun p => .subImm p.1 p.2,
   regPairs.map fun p => .mulReg p.1 p.2, regNumberPairs.map fun p => .mulImm p.1 p.2,
   regPairs.map fun p => .divReg p.1 p.2, regNumberPairs.map fun p => .divImm p.1 p.2,
   numbers.map .jmp, regNumberPairs.map fun p => .je p.1 p.2, numbers.map .call, [.ret],
   regPairs.map fun p => .ldReg p.1 p.2, regNumberPairs.map fun p => .ldImm p.1 p.2,
   regPairs.map fun p => .stReg p.1 p.2, regNumberPairs.map fun p => .stImm p.1 p.2,
   regs.map .out, [.rst], [.hlt]]

theorem mem_representable (i : Instr) : i ∈ representableByForm.flatten ↔ i.wellFormed = true := by
  cases i <;> simp [representableByForm, Instr.wellFormed, Instr.immediate]

/-- Six forms have two registers, six a register and an immediate, JE a register and a target, two a target only; OUT has one
register and three forms have no operand (R84). -/
theorem length_representable : representableByForm.flatten.length = 6 * 4 + 6 * 2048 + 2048 + 2 * 1024 + 2 + 3 := by
  simp [representableByForm]

/-- An instruction of a form determines its operands. -/
theorem nodup_of_mem_representableByForm : ∀ l ∈ representableByForm, l.Nodup := by
  simp [representableByForm, List.nodup_map_iff_inj_on, Prod.ext_iff]

/-- The instructions of a form are of its row. -/
theorem row_representableByForm : List.Forall₂ (fun l r => ∀ i ∈ l, i.row = r) representableByForm opcodeTable := by
  simp only [representableByForm, opcodeTable, List.forall₂_cons, List.forall_mem_map, List.forall_mem_singleton,
    Instr.row, implies_true, List.Forall₂.nil, and_self]

/-- Lists whose elements have different values of a function, the values without repetition, share no element. -/
theorem pairwise_disjoint_of_forall₂ {α β : Type} {f : α → β} {lists : List (List α)} {values : List β}
    (h : List.Forall₂ (fun l v => ∀ a ∈ l, f a = v) lists values) (hv : values.Nodup) :
    lists.Pairwise List.Disjoint := by
  rw [List.pairwise_iff_getElem]
  intro j k hj hk hjk a haj hak
  have hlen := h.length_eq
  have hsame : values[j] = values[k] := (h.get hj (by omega) a haj).symm.trans (h.get hk (by omega) a hak)
  exact absurd (hv.getElem_inj_iff.1 hsame) (by omega)

theorem nodup_opcodeTable : opcodeTable.Nodup := by decide

theorem nodup_representable : representableByForm.flatten.Nodup :=
  List.nodup_flatten.2 ⟨nodup_of_mem_representableByForm,
    pairwise_disjoint_of_forall₂ row_representableByForm nodup_opcodeTable⟩

/-- Settles O1: the round trip makes `encode` injective, and the count is form by form. -/
theorem codecRoundTrip : Obligations.CodecRoundTrip :=
  ⟨fun _ h => ⟨if_pos h, decode_encode h⟩, fun _ _ => encode_injective,
    _, nodup_representable, mem_representable, length_representable⟩

/-! ### A word from its fields, its ignored bits 0 (R72 to R76, R82, R83) -/

theorem eq_and_of_bits {v w m : InsnWord} (h : ∀ k < 16, v.getLsbD k = (w.getLsbD k && m.getLsbD k)) : v = w &&& m :=
  BitVec.eq_of_getLsbD_eq fun k hk => (h k hk).trans (bit_of_and k).symm

section
variable {w : InsnWord} {op : BitVec 4} (hop : (opField w).toNat = op.toNat)
include hop

theorem encodeAReg_fields (h : bit11 w = true) :
    encodeAReg op (regOfBit (bit10 w)) (regOfBit (bit0 w)) = w &&& 0xFC01#16 := by
  obtain rfl := BitVec.eq_of_toNat_eq hop
  refine eq_and_of_bits fun k hk => ?_
  rw [encodeAReg_bit]
  interval_cases k <;> simp [opField, bit10, bit0]
  simpa [bit11] using h

theorem encodeAImm_fields (h : bit11 w = false) :
    encodeAImm op (regOfBit (bit10 w)) (immField w) = w &&& 0xFFFF#16 := by
  obtain rfl := BitVec.eq_of_toNat_eq hop
  refine eq_and_of_bits fun k hk => ?_
  rw [encodeAImm_bit]
  interval_cases k <;> simp [opField, ofNat_immField, bit10]
  simpa [bit11] using h

theorem encodeJ_fields : encodeJ op (immField w) = w &&& 0xF3FF#16 := by
  obtain rfl := BitVec.eq_of_toNat_eq hop
  refine eq_and_of_bits fun k hk => ?_
  rw [encodeJ_bit]
  interval_cases k <;> simp [opField, ofNat_immField]

theorem encodeT_fields : encodeT op (regOfBit (bit11 w)) (immField w) = w &&& 0xFBFF#16 := by
  obtain rfl := BitVec.eq_of_toNat_eq hop
  refine eq_and_of_bits fun k hk => ?_
  rw [encodeT_bit]
  interval_cases k <;> simp [opField, ofNat_immField, bit11]

theorem encodeO_fields : encodeO op (regOfBit (bit11 w)) = w &&& 0xF800#16 := by
  obtain rfl := BitVec.eq_of_toNat_eq hop
  refine eq_and_of_bits fun k hk => ?_
  rw [encodeO_bit]
  interval_cases k <;> simp [opField, bit11]

theorem encodeZ_fields : encodeZ op = w &&& 0xF000#16 := by
  obtain rfl := BitVec.eq_of_toNat_eq hop
  refine eq_and_of_bits fun k hk => ?_
  rw [encodeZ_bit]
  interval_cases k <;> simp [opField]

end

/-- The instruction is representable, and its encoding is the word with the ignored bits of its form 0 (R82, R83). -/
def ReadFrom (w : InsnWord) (i : Instr) : Prop := i.wellFormed = true ∧ encode i = w &&& i.row.used

/-- Format A: bit 11 says which of an opcode's two forms the word is (R72). -/
theorem decodeFormA_readFrom {w : InsnWord} {op : BitVec 4} {regForm : Reg → Reg → Instr} {immForm : Reg → Nat → Instr}
    (hr : ∀ d q, (regForm d q).wellFormed = true ∧ encode (regForm d q) = encodeAReg op d q ∧
      (regForm d q).row.used = 0xFC01#16)
    (hi : ∀ d n, n < immLimit → (immForm d n).wellFormed = true ∧ encode (immForm d n) = encodeAImm op d n ∧
      (immForm d n).row.used = 0xFFFF#16)
    (hop : (opField w).toNat = op.toNat) : ReadFrom w (decodeFormA regForm immForm w) := by
  unfold decodeFormA
  split
  · rename_i h
    obtain ⟨hwf, henc, hused⟩ := hr (regOfBit (bit10 w)) (regOfBit (bit0 w))
    exact ⟨hwf, by rw [henc, hused, encodeAReg_fields hop h]⟩
  · rename_i h
    obtain ⟨hwf, henc, hused⟩ := hi (regOfBit (bit10 w)) (immField w) (immField_lt w)
    exact ⟨hwf, by rw [henc, hused, encodeAImm_fields hop (Bool.eq_false_of_not_eq_true h)]⟩

/-- Opcode by opcode, the fields that were read are the ones the format writes (R80, R82). -/
theorem decode_readFrom {w : InsnWord} {i : Instr} (h : decode w = .ok i) : ReadFrom w i := by
  have target : decide (immField w < immLimit) = true := decide_eq_true (immField_lt w)
  unfold decode at h
  split at h <;> rename_i hop <;> cases h
  · exact decodeFormA_readFrom (fun _ _ => ⟨rfl, rfl, rfl⟩) (fun _ _ hn => ⟨decide_eq_true hn, rfl, rfl⟩) hop
  · exact decodeFormA_readFrom (fun _ _ => ⟨rfl, rfl, rfl⟩) (fun _ _ hn => ⟨decide_eq_true hn, rfl, rfl⟩) hop
  · exact decodeFormA_readFrom (fun _ _ => ⟨rfl, rfl, rfl⟩) (fun _ _ hn => ⟨decide_eq_true hn, rfl, rfl⟩) hop
  · exact decodeFormA_readFrom (fun _ _ => ⟨rfl, rfl, rfl⟩) (fun _ _ hn => ⟨decide_eq_true hn, rfl, rfl⟩) hop
  · exact ⟨target, encodeJ_fields hop⟩
  · exact ⟨target, encodeT_fields hop⟩
  · exact ⟨target, encodeJ_fields hop⟩
  · exact ⟨rfl, encodeZ_fields hop⟩
  · exact decodeFormA_readFrom (fun _ _ => ⟨rfl, rfl, rfl⟩) (fun _ _ hn => ⟨decide_eq_true hn, rfl, rfl⟩) hop
  · exact decodeFormA_readFrom (fun _ _ => ⟨rfl, rfl, rfl⟩) (fun _ _ hn => ⟨decide_eq_true hn, rfl, rfl⟩) hop
  · exact ⟨rfl, encodeO_fields hop⟩
  · exact ⟨rfl, encodeZ_fields hop⟩
  · exact ⟨rfl, encodeZ_fields hop⟩

/-- Settles O2: what a word decodes to is read from it. -/
theorem encodeOfDecodeClearsIgnoredBits : Obligations.EncodeOfDecodeClearsIgnoredBits := fun _ _ h => decode_readFrom h

/-! ### The opcode table (R77, R80) -/

theorem TableRow.covers_iff {r : TableRow} {w : InsnWord} : r.covers w = true ↔ w &&& r.mask = r.pattern :=
  decide_eq_true_iff

/-- Two rows of the table differ in a bit that both masks have. -/
theorem patterns_differ :
    ∀ r ∈ opcodeTable, ∀ q ∈ opcodeTable, r ≠ q → r.pattern &&& q.mask ≠ q.pattern &&& r.mask := by
  decide

theorem row_unique {r q : TableRow} {w : InsnWord} (hr : r ∈ opcodeTable) (hq : q ∈ opcodeTable)
    (hrw : r.covers w = true) (hqw : q.covers w = true) : r = q := by
  by_contra hne
  apply patterns_differ r hr q hq hne
  rw [← TableRow.covers_iff.1 hrw, ← TableRow.covers_iff.1 hqw, BitVec.and_assoc, BitVec.and_assoc,
    BitVec.and_comm r.mask]

/-- Settles O5: a word is of one row only, and the rows are distinct. -/
theorem opcodeTableRowsAreDisjoint : Obligations.OpcodeTableRowsAreDisjoint :=
  ⟨rfl, nodup_opcodeTable.imp_of_mem fun hr hq hne _ h => hne (row_unique hr hq h.1 h.2)⟩

/-- Every row has the whole opcode nibble in its mask, and a defined one in its pattern (R71, R77). -/
theorem opField_of_mem_opcodeTable :
    ∀ r ∈ opcodeTable, opField r.mask = BitVec.allOnes 4 ∧ (opField r.pattern).toNat < 13 := by
  decide

theorem opField_and (w m : InsnWord) : opField (w &&& m) = opField w &&& opField m := BitVec.extractLsb'_and

/-- A word of a row has a defined opcode nibble (R80). -/
theorem decode_of_covers {r : TableRow} {w : InsnWord} (hr : r ∈ opcodeTable) (hw : r.covers w = true) :
    ∃ i, decode w = .ok i := by
  obtain ⟨hmask, hpattern⟩ := opField_of_mem_opcodeTable r hr
  rw [← TableRow.covers_iff.1 hw, opField_and, hmask, BitVec.and_allOnes] at hpattern
  exact decode_defined w hpattern

theorem row_mem_opcodeTable (i : Instr) : i.row ∈ opcodeTable := by
  cases i <;> simp [opcodeTable, Instr.row]

/-- No row ignores a bit of its mask. -/
theorem used_and_mask : ∀ r ∈ opcodeTable, r.used &&& r.mask = r.mask := by decide

/-- The per-instruction laws in one statement. -/
theorem encode_and_mask (i : Instr) : encode i &&& i.row.mask = i.row.pattern :=
  match i with
  | .addReg d q => Laws.MaskMatch.addReg d q
  | .addImm d n => Laws.MaskMatch.addImm d n
  | .subReg d q => Laws.MaskMatch.subReg d q
  | .subImm d n => Laws.MaskMatch.subImm d n
  | .mulReg d q => Laws.MaskMatch.mulReg d q
  | .mulImm d n => Laws.MaskMatch.mulImm d n
  | .divReg d q => Laws.MaskMatch.divReg d q
  | .divImm d n => Laws.MaskMatch.divImm d n
  | .jmp t => Laws.MaskMatch.jmp t
  | .je q t => Laws.MaskMatch.je q t
  | .call t => Laws.MaskMatch.call t
  | .ret => Laws.MaskMatch.ret
  | .ldReg r a => Laws.MaskMatch.ldReg r a
  | .ldImm r n => Laws.MaskMatch.ldImm r n
  | .stReg r a => Laws.MaskMatch.stReg r a
  | .stImm r n => Laws.MaskMatch.stImm r n
  | .out r => Laws.MaskMatch.out r
  | .rst => Laws.MaskMatch.rst
  | .hlt => Laws.MaskMatch.hlt

/-- A row covers a word exactly when it covers the word without its ignored bits. -/
theorem covers_iff_of_used {r : TableRow} {w : InsnWord} (hr : r ∈ opcodeTable) :
    r.covers w = true ↔ (w &&& r.used) &&& r.mask = r.pattern := by
  rw [TableRow.covers_iff, BitVec.and_assoc, used_and_mask r hr]

theorem row_covers_of_decode {w : InsnWord} {i : Instr} (h : decode w = .ok i) : i.row.covers w = true := by
  rw [covers_iff_of_used (row_mem_opcodeTable i), ← (decode_readFrom h).2, encode_and_mask]

/-- A word of an instruction's row decodes to an instruction of that row, for no other row has the word. -/
theorem decode_row_of_covers {r : TableRow} {w : InsnWord} (hr : r ∈ opcodeTable) (hw : r.covers w = true) :
    ∃ i, decode w = .ok i ∧ i.row = r := by
  obtain ⟨i, hi⟩ := decode_of_covers hr hw
  exact ⟨i, hi, row_unique (row_mem_opcodeTable i) hr (row_covers_of_decode hi) hw⟩

/-- Settles O4: decoding reads an instruction of the word's row, and the word is of no other. -/
theorem decodeFollowsOpcodeTable : Obligations.DecodeFollowsOpcodeTable := fun _ =>
  ⟨fun i hi => ⟨row_mem_opcodeTable i, row_covers_of_decode hi⟩, fun _ => decode_row_of_covers⟩

/-- Settles O3: the other word is of the same row, so both instructions have the one encoding, and `encode` is injective. -/
theorem ignoredBitsDoNotMatter : Obligations.IgnoredBitsDoNotMatter := by
  intro w v i hw hv
  have hcovers : i.row.covers v = true := by
    rw [covers_iff_of_used (row_mem_opcodeTable i), hv, ← covers_iff_of_used (row_mem_opcodeTable i)]
    exact row_covers_of_decode hw
  obtain ⟨j, hj, hrow⟩ := decode_row_of_covers (row_mem_opcodeTable i) hcovers
  obtain ⟨hiwf, hienc⟩ := decode_readFrom hw
  obtain ⟨hjwf, hjenc⟩ := decode_readFrom hj
  have hji : j = i := encode_injective hjwf hiwf (by rw [hjenc, hienc, hrow, hv])
  rw [hj, hji]

/-- Settles O6: `opField` is bits 15..12. -/
theorem undefinedNibblesAreUnknown : Obligations.UndefinedNibblesAreUnknown :=
  fun w => ⟨decode_undefined w, decode_defined w⟩

namespace Machine

/-! ### Program images (R83, R86, R87, R91) -/

/-- An error met after an image whose words all decode (R87, log 19). -/
theorem parseImage_append_error {image : Image} (h : ∀ w ∈ image.words, ∃ i, decode w = .ok i) {tail : List Byte}
    {e : EncodingError} (ht : readWords tail = .error e) : parseImage (image.bytes ++ tail) = .error e := by
  rw [Image.bytes, List.append_assoc, bytesOfWord_append, parseImage, readWords_error _ h tail e ht]

theorem readWords_undefined {w : InsnWord} (h : 13 ≤ (opField w).toNat) (rest : List Byte) :
    readWords (bytesOfWord w ++ rest) = .error (.unknownOpcode w) := by
  rw [bytesOfWord_append, readWords, wordOfBytes_halves, decode_undefined w h]

/-- Too long an image is refused after its words are read (D31, log 19). -/
theorem parseImage_tooLong {image : Image} (h : ∀ w ∈ image.words, ∃ i, decode w = .ok i)
    (hlen : imemWords < image.words.length) : parseImage image.bytes = .error .operandOutOfRange := by
  rw [Image.bytes, bytesOfWord_append, parseImage, readWords_words _ h]
  exact if_pos hlen

/-- Settles O9: the first error after words that decode is the image's; the length is looked at last. -/
theorem imageErrors : Obligations.ImageErrors := by
  refine ⟨fun image b h => parseImage_append_error h rfl, rfl, fun _ => rfl, fun image w rest h hw => ?_,
    fun image => parseImage_tooLong⟩
  rw [List.append_assoc]
  exact parseImage_append_error h (readWords_undefined hw rest)

/-- Encoding every instruction succeeds exactly on representable ones (R83). -/
theorem eachLine_encodeChecked (is : List Instr) (ws : List InsnWord) :
    eachLine encodeChecked is = .ok ws ↔ (∀ i ∈ is, i.wellFormed = true) ∧ ws = is.map encode := by
  simp only [eachLine_ok, encodeChecked_ok, List.forall₂_and_left]
  rw [← List.forall₂_map_left_iff (f := encode) (R := Eq), List.forall₂_eq_eq_eq, eq_comm]

/-- Which programs have an image, and which image (R83, R86, R91). -/
theorem image_eq_ok {p : Program} {image : Image} :
    p.image = .ok image ↔ (∀ i ∈ p.instructions, i.wellFormed = true) ∧ p.entry < p.instructions.length ∧
      p.instructions.length ≤ 1024 ∧ image = ⟨BitVec.ofNat 16 p.entry, p.instructions.map encode⟩ := by
  unfold Program.image
  split
  · rename_i hsize
    obtain ⟨hentry, hlen⟩ := hsize
    cases hl : eachLine encodeChecked p.instructions with
    | error e =>
      refine ⟨nofun, fun ⟨hwf, _⟩ => ?_⟩
      cases hl.symm.trans ((eachLine_encodeChecked _ _).2 ⟨hwf, rfl⟩)
    | ok ws =>
      obtain ⟨hwf, rfl⟩ := (eachLine_encodeChecked _ _).1 hl
      exact ⟨fun h => ⟨hwf, hentry, hlen, (Except.ok.inj h).symm⟩, fun ⟨_, _, _, h⟩ => congrArg Except.ok h.symm⟩
  · rename_i hsize
    exact ⟨nofun, fun ⟨_, hentry, hlen, _⟩ => absurd ⟨hentry, hlen⟩ hsize⟩

theorem image_error {p : Program} {e : EncodingError} (h : p.image = .error e) : e = .operandOutOfRange := by
  unfold Program.image at h
  split at h
  · cases hl : eachLine encodeChecked p.instructions with
    | error e' =>
      rw [hl] at h
      cases h
      obtain ⟨i, -, hi⟩ := eachLine_error hl
      exact (encodeChecked_error hi).2
    | ok ws => rw [hl] at h; cases h
  · cases h; rfl

/-- Settles O58, by the size check and then the pass over the instructions. -/
theorem programImageExactly : Obligations.ProgramImageExactly := fun _ => ⟨fun _ => image_eq_ok, fun _ => image_error⟩

/-- Settles O59: the entry is START's address, at least 1 by the vector line (R92), and the words are encodings, which decode. -/
theorem assembledImageIsAdmitted : Obligations.AssembledImageIsAdmitted := by
  intro text p image hp himage
  obtain ⟨hwf, hentry, hlen, rfl⟩ := image_eq_ok.1 himage
  obtain ⟨-, -, -, -, -, hpos, -⟩ := assembledProgramHasTrampoline text p hp
  have hnat : (BitVec.ofNat 16 p.entry).toNat = p.entry := by
    rw [BitVec.toNat_ofNat, Nat.mod_eq_of_lt (by omega)]
  have hdecode : ∀ w ∈ p.instructions.map encode, ∃ i, decode w = .ok i :=
    List.forall_mem_map.2 fun i hi => ⟨i, decode_encode (hwf i hi)⟩
  rw [hnat, List.length_map]
  exact ⟨rfl, hpos, by omega, hentry, hlen, (imageAdmittedExactly _ _).2 ⟨rfl, hdecode, by rwa [List.length_map]⟩⟩

end Machine

end Sys2Proof
end

section
/-! SUPPORT. The family 40_control_unit.md: the scheduling step, the parts of an iteration in their order, the two fetch
faults, the spent budget, and the tick of a whole step. -/

namespace Sys2Proof.Machine

/-! ### The scheduling step (R107) -/

theorem eventDue_cons {s : State} {e : InputEvent} {rest : List InputEvent} (h : s.inQueue = e :: rest) :
    s.eventDue = true ↔ e.scheduledTick ≤ s.tick := by
  rw [State.eventDue, h]
  exact decide_eq_true_iff

theorem schedule_due {s : State} (h : s.eventDue = true) : schedule s = { s with irqFlag := true } := if_pos h

theorem schedule_not_due {s : State} (h : ¬ s.eventDue = true) : schedule s = s := if_neg h

/-- Settles O40: an event is due exactly when there is a head of the queue and its tick has come. -/
theorem scheduleSetsFlagWhenDue : Obligations.ScheduleSetsFlagWhenDue := fun _ =>
  ⟨fun _ _ hq hdue => schedule_due ((eventDue_cons hq).2 hdue),
    fun _ _ hq hlater => schedule_not_due fun hdue => hlater ((eventDue_cons hq).1 hdue),
    fun hq => schedule_not_due fun hdue => eventDue_queued hdue hq⟩

/-! ### The driver's pass (R107, R108) -/

theorem step_of_budgetSpent {s : State} (hr : s.runState = .running) (hb : s.budgetSpent = true) :
    step s = .next (s.takeFault .iterationBudgetExceeded s.pc none false) := by
  rw [step, driverPass, if_pos hr, if_pos hb]

theorem step_of_canStep {s : State} (h : s.CanStep) :
    step s = onNext (iteration (schedule s)) fun t => .next (countIteration t) := by
  obtain ⟨hr, hb, hc⟩ := h
  rw [State.collisionFree] at hc
  rw [step, driverPass, if_pos hr, hb, hc, if_neg Bool.false_ne_true, if_neg Bool.false_ne_true]

theorem budgetSpent_of_le {s : State} {b : Nat} (hc : s.cfg.iterBudget = some b) (hb : b ≤ s.iterations) :
    s.budgetSpent = true := by
  rw [State.budgetSpent, hc]
  exact decide_eq_true hb

/-- Settles O41: the budget is the first thing a running pass looks at. -/
theorem budgetExceededFaults : Obligations.BudgetExceededFaults := fun _ _ hr hc hb =>
  step_of_budgetSpent hr (budgetSpent_of_le hc hb)

/-! ### An iteration, by what it fetches (R100, R101, R102) -/

theorem fetch_outside {s : State} (h : s.progLen ≤ uint s.pc) : fetch s = .error (.fetchOutOfRange s.pc) := by
  rw [fetch, List.getElem?_eq_none h]

theorem fetch_schedule (s : State) : fetch (schedule s) = fetch s := by
  rw [fetch, fetch, schedule_imem, schedule_pc]

theorem iteration_of_fetch_error {s : State} {fault : ExecFault} (h : fetch s = .error fault) :
    iteration s = .next (s.takeFault fault s.pc none false) := by
  rw [iteration, h]

theorem iteration_of_decode_error {s : State} {w : InsnWord} {e : EncodingError} (hf : fetch s = .ok w)
    (hd : decode w = .error e) : iteration s = .next (s.takeFault (.unknownOpcode w) s.pc (some w) false) := by
  simp only [iteration, hf, hd]

theorem iteration_of_decode {s : State} {w : InsnWord} {i : Instr} (hf : fetch s = .ok w) (hd : decode w = .ok i) :
    iteration s = onNext (exec i s) (afterExecute w) := by
  simp only [iteration, hf, hd]

/-- Settles O37: the scheduled state fetches the same word, and the iteration executes what it decodes to. -/
theorem stepRunsDecodedInstruction : Obligations.StepRunsDecodedInstruction := by
  intro s w i can hw hd
  have hf : fetch (schedule s) = .ok w := by rw [fetch_schedule, fetch_word.2 hw]
  rw [step_of_canStep can, iteration_of_decode hf hd]

/-- Settles O39: in both cases the iteration ends at the fetch, and the driver counts it. -/
theorem fetchFaults : Obligations.FetchFaults := by
  intro s can
  rw [step_of_canStep can]
  refine ⟨fun hout => ?_, fun w hw hop => ?_⟩
  · have hf : fetch (schedule s) = .error (.fetchOutOfRange s.pc) := by rw [fetch_schedule, fetch_outside hout]
    rw [iteration_of_fetch_error hf, onNext_next, schedule_pc]
  · have hf : fetch (schedule s) = .ok w := by rw [fetch_schedule, fetch_word.2 hw]
    rw [iteration_of_decode_error hf (decode_undefined w hop), onNext_next, schedule_pc]

/-! ### After the instruction (R104, R105) -/

theorem afterExecute_stopped {w : InsnWord} {s : State} (h : s.runState ≠ .running) : afterExecute w s = .next s :=
  if_neg h

theorem afterExecute_without_flag {w : InsnWord} {s : State} (hr : s.runState = .running) (hf : s.irqFlag = false) :
    afterExecute w s = .next (advanceTick s) := by
  rw [afterExecute, if_pos hr, hf, if_neg Bool.false_ne_true, onNext_next]

theorem afterExecute_with_flag {w : InsnWord} {s t : State} (hr : s.runState = .running) (hf : s.irqFlag = true)
    (ht : interruptEntry w s = .next t) : afterExecute w s = .next (advanceTick t) := by
  rw [afterExecute, if_pos hr, if_pos hf, ht, onNext_next]

/-- Settles O38, by the three cases of `afterExecute` and the two of the tick. -/
theorem afterExecuteOrder : Obligations.AfterExecuteOrder := by
  refine fun w s t => ⟨afterExecute_stopped, fun hr hf => ?_, fun hr hf ht => ?_⟩
  · rw [afterExecute_without_flag hr hf, advanceTick_running s hr]
  · rw [afterExecute_with_flag hr hf ht]
    exact ⟨fun hrun => by rw [advanceTick_running t hrun], fun hstop => by rw [advanceTick_stopped t hstop]⟩

/-! ### The tick of a step (R105) -/

/-- The tick a running step, or its rest after the instruction, ends with when it began at `n`: one more exactly where the
run goes on (R105). -/
def State.TickFrom (n : Nat) (t : State) : Prop :=
  (t.runState = .running → t.tick = n + 1) ∧ (t.runState ≠ .running → t.tick = n)

theorem State.TickFrom.of_stopped {n : Nat} {t : State} (hr : t.runState ≠ .running) (ht : t.tick = n) : t.TickFrom n :=
  ⟨fun h => absurd h hr, fun _ => ht⟩

theorem advanceTick_tickFrom (s : State) : (advanceTick s).TickFrom s.tick := by
  by_cases hr : s.runState = .running
  · rw [advanceTick_running s hr]
    exact ⟨fun _ => rfl, fun h => absurd hr h⟩
  · rw [advanceTick_stopped s hr]
    exact .of_stopped hr rfl

theorem interruptEntry_tick {w : InsnWord} {s t : State} (h : interruptEntry w s = .next t) : t.tick = s.tick := by
  rcases interruptEntry_cases w s with ⟨e, rest, -, -, -, hi⟩ | ⟨-, hi⟩ | ⟨f, l, n, d, hi, -⟩ <;> cases hi.symm.trans h
  · rfl
  · rfl

theorem afterExecute_tickFrom {w : InsnWord} {s t : State} (h : afterExecute w s = .next t) : t.TickFrom s.tick := by
  rcases afterExecute_cases h with ⟨hr, rfl⟩ | ⟨-, -, rfl⟩ | ⟨-, -, u, hu, rfl⟩
  · exact .of_stopped hr rfl
  · exact advanceTick_tickFrom s
  · rw [← interruptEntry_tick hu]
    exact advanceTick_tickFrom u

/-- Settles O52, case by case over what a running step can answer: a step that raises before the instruction leaves the
tick, and an instruction leaves it to what follows in the iteration. -/
theorem tickAdvancesOncePerIteration : Obligations.TickAdvancesOncePerIteration := by
  intro s u hr hstep
  show u.TickFrom s.tick
  rcases step_cases hstep with ⟨hstop, -⟩ | ⟨-, -, rfl⟩ | ⟨-, -, rfl⟩ | ⟨w, e, -, -, -, rfl⟩ |
    ⟨w, i, t, v, -, -, -, hexec, hafter, rfl⟩
  · exact absurd hr hstop
  · exact .of_stopped nofun rfl
  · exact .of_stopped nofun (schedule_tick s)
  · exact .of_stopped nofun (schedule_tick s)
  · have htick : t.tick = s.tick := (exec_keeps hexec).outside.tick.trans (schedule_tick s)
    have hv : v.TickFrom t.tick := afterExecute_tickFrom hafter
    rw [htick] at hv
    exact hv

end Sys2Proof.Machine
end

section
/-! SUPPORT. The family 41_arithmetic.md: the ALU's results as bit-vector operations, the two outcomes of the eight
arithmetic forms, and what they write and leave. -/

namespace Sys2Proof.Machine

/-! ### The ALU (R115, R117) -/

/-- The wrapped signed sum is the bit vectors' one addition (R117(a)). -/
theorem wrap_add (l r : Word) : wrap (sint l + sint r) = l + r := by
  rw [wrap, BitVec.ofInt_add, BitVec.ofInt_toInt, BitVec.ofInt_toInt]

theorem wrap_sub (l r : Word) : wrap (sint l - sint r) = l - r := by
  apply BitVec.eq_of_toInt_eq
  rw [wrap, BitVec.toInt_ofInt, BitVec.toInt_sub]

theorem wrap_mul (l r : Word) : wrap (sint l * sint r) = l * r := by
  rw [wrap, BitVec.ofInt_mul, BitVec.ofInt_toInt, BitVec.ofInt_toInt]

/-- The wrapped truncated quotient is the bit vectors' signed division (R117(b)). -/
theorem wrap_tdiv (l r : Word) : wrap (Int.tdiv (sint l) (sint r)) = l.sdiv r := by
  apply BitVec.eq_of_toInt_eq
  rw [wrap, BitVec.toInt_ofInt, BitVec.toInt_sdiv]

theorem sint_eq_zero {r : Word} : sint r = 0 ↔ r = 0#32 := BitVec.toInt_inj (y := 0#32)

theorem aluResult_div {l r : Word} (h : r ≠ 0#32) :
    aluResult .div l r = some (wrap (Int.tdiv (sint l) (sint r))) := if_neg (mt sint_eq_zero.1 h)

theorem aluResult_div_zero (l : Word) : aluResult .div l 0#32 = none := by
  rw [aluResult, if_pos (sint_eq_zero.2 rfl)]

theorem aluResult_div_eq_none {l r : Word} : aluResult .div l r = none ↔ r = 0#32 := by
  refine ⟨fun h => ?_, fun h => h ▸ aluResult_div_zero l⟩
  by_contra hr
  cases (aluResult_div hr).symm.trans h

/-- The quotient is exact unless it is the one that overflows (R117(b), (d)). -/
theorem sint_sdiv {l r : Word} (h : ¬ (sint l = -2147483648 ∧ sint r = -1)) :
    sint (l.sdiv r) = Int.tdiv (sint l) (sint r) := by
  apply BitVec.toInt_sdiv_of_ne_or_ne
  by_contra! hboth
  obtain ⟨rfl, rfl⟩ := hboth
  exact h (by decide)

/-- The quotient that overflows wraps to its left operand (R117(d)). -/
theorem sdiv_overflow {l r : Word} (hl : sint l = -2147483648) (hr : sint r = -1) : l.sdiv r = l := by
  obtain rfl : l = BitVec.intMin 32 := BitVec.eq_of_toInt_eq hl
  obtain rfl : r = -1#32 := BitVec.eq_of_toInt_eq hr
  exact BitVec.intMin_sdiv_neg_one

/-- Settles O16: each wrapped result is the bit vectors' own operation, whose unsigned reading is the library's. -/
theorem aluIntegerLaws : Obligations.AluIntegerLaws := by
  intro l r
  refine ⟨⟨_, rfl, ?_⟩, ⟨_, rfl, ?_⟩, ⟨_, rfl, ?_⟩, aluResult_div_eq_none, fun hr hfits => ⟨_, aluResult_div hr, ?_⟩,
    fun hl hr => ?_⟩
  · rw [wrap_add, uint, BitVec.toNat_add]
  · rw [wrap_sub, uint, BitVec.toNat_sub']
  · rw [wrap_mul, uint, BitVec.toNat_mul]
  · rw [wrap_tdiv, sint_sdiv hfits]
  · have hr0 : r ≠ 0#32 := fun h => by rw [h] at hr; cases hr
    rw [aluResult_div hr0, wrap_tdiv, sdiv_overflow hl hr]

/-! ### The two outcomes of the eight forms (R116, R119, R126) -/

section
variable {i : Instr} {op : AluOp} {d : Reg} {left right : LatchSource} {s : State} {v : Word}

/-- An arithmetic instruction is the register form or the immediate form of its operation. -/
theorem arithmeticOf_form (hi : arithmeticOf i = some (op, d, left, right)) :
    (bodyOf i = arithReg op d ∧ left = .reg .r1 ∧ right = .reg .r2) ∨
    ∃ n, bodyOf i = arithImm op d n ∧ left = .reg d ∧ right = .literal (zextW n) := by
  cases i with
  | addReg d q => cases hi; exact .inl ⟨rfl, rfl, rfl⟩
  | addImm d n => cases hi; exact .inr ⟨n, rfl, rfl, rfl⟩
  | subReg d q => cases hi; exact .inl ⟨rfl, rfl, rfl⟩
  | subImm d n => cases hi; exact .inr ⟨n, rfl, rfl, rfl⟩
  | mulReg d q => cases hi; exact .inl ⟨rfl, rfl, rfl⟩
  | mulImm d n => cases hi; exact .inr ⟨n, rfl, rfl, rfl⟩
  | divReg d q => cases hi; exact .inl ⟨rfl, rfl, rfl⟩
  | divImm d n => cases hi; exact .inr ⟨n, rfl, rfl, rfl⟩
  | _ => cases hi

/-- Everything the body of an arithmetic instruction can do. -/
theorem bodyOf_arithmetic (hi : arithmeticOf i = some (op, d, left, right)) :
    bodyOf i s = match aluResult op (left.value s) (right.value s) with
      | some v => .done () (s.computed d (left.value s) (right.value s) v)
      | none => .raised .divisionByZero { s with aluL := left.value s, aluR := right.value s } := by
  rcases arithmeticOf_form hi with ⟨hbody, rfl, rfl⟩ | ⟨n, hbody, rfl, rfl⟩ <;> rw [hbody]
  · exact arithReg_eq op d s
  · exact arithImm_eq op d n s

/-- Where the ALU has a result, the instruction completes with it. -/
theorem exec_arithmetic_completes (hi : arithmeticOf i = some (op, d, left, right))
    (hv : aluResult op (left.value s) (right.value s) = some v) :
    exec i s = .next (s.computed d (left.value s) (right.value s) v) :=
  exec_done (by rw [bodyOf_arithmetic hi, hv])

theorem exec_regForm_completes (hi : arithmeticOf i = some (op, d, .reg .r1, .reg .r2))
    (hv : aluResult op s.r1 s.r2 = some v) : exec i s = .next (s.computed d s.r1 s.r2 v) :=
  exec_arithmetic_completes hi hv

theorem exec_immForm_completes {n : Nat} (hi : arithmeticOf i = some (op, d, .reg d, .literal (zextW n)))
    (hv : aluResult op (s.getReg d) (zextW n) = some v) : exec i s = .next (s.computed d (s.getReg d) (zextW n) v) :=
  exec_arithmetic_completes hi hv

/-- Where the ALU has none, the instruction raises with the operand latches loaded and nothing else written. -/
theorem exec_arithmetic_raises (hi : arithmeticOf i = some (op, d, left, right))
    (hv : aluResult op (left.value s) (right.value s) = none) :
    exec i s = .next (State.takeFault { s with aluL := left.value s, aluR := right.value s }
      .divisionByZero s.pc s.currentWord false) :=
  exec_raised (by rw [bodyOf_arithmetic hi, hv])

end

/-- Settles O12: ADD, SUB and MUL have a result for all operands, so the register form completes. -/
theorem arithmeticRegisterFormsComplete : Obligations.ArithmeticRegisterFormsComplete := fun _ _ _ =>
  ⟨exec_regForm_completes rfl rfl, exec_regForm_completes rfl rfl, exec_regForm_completes rfl rfl⟩

/-- Settles O13: ADD, SUB and MUL have a result for all operands, so the immediate form completes. -/
theorem arithmeticImmediateFormsComplete : Obligations.ArithmeticImmediateFormsComplete := fun _ _ _ =>
  ⟨exec_immForm_completes rfl rfl, exec_immForm_completes rfl rfl, exec_immForm_completes rfl rfl⟩

/-- Settles O14: a divisor that is not 0 has a quotient, and a literal from 1 to 1023 is such a divisor. -/
theorem divisionCompletes : Obligations.DivisionCompletes := by
  refine ⟨fun d q s hr => exec_regForm_completes rfl (aluResult_div hr), fun d n s hpos hlt => ?_⟩
  have hn : sint (zextW n) = n := sint_zextW n hlt
  have hne : zextW n ≠ 0#32 := fun h => by rw [sint_eq_zero.2 h] at hn; omega
  rw [← hn]
  exact exec_immForm_completes rfl (aluResult_div hne)

/-- Settles O15: the ALU has no quotient by 0, whatever the left operand is. -/
theorem divisionByZeroFaults : Obligations.DivisionByZeroFaults := by
  refine fun d q s => ⟨fun hr => ?_, ?_⟩
  · rw [← hr]
    exact exec_arithmetic_raises (left := .reg .r1) (right := .reg .r2) rfl (aluResult_div_eq_none.2 hr)
  · exact exec_arithmetic_raises (left := .reg d) (right := .literal 0#32) rfl (aluResult_div_zero _)

/-- Settles O17, by whether the ALU has a result: one register, the latches and the pc are written, or the operand latches
and the run state. -/
theorem arithmeticFrame : Obligations.ArithmeticFrame := by
  intro i op d left right s t hi hrun h
  have houtside : s.SameOutside t := (exec_keeps h).outside
  cases hv : aluResult op (left.value s) (right.value s) with
  | some v =>
    cases (exec_arithmetic_completes hi hv).symm.trans h
    have hrun' : (s.setReg d v).runState = .running := by rw [setReg_runState, hrun]
    exact ⟨fun r hr => getReg_setReg_other s d r v hr, rfl, rfl, fun a => congrArg (·.read a) (setReg_dmem s d v),
      setReg_outBuf s d v, setReg_sp s d v, setReg_openHandlers s d v, houtside,
      fun _ => ⟨rfl, getReg_setReg_same s d v, rfl⟩, fun hstop => absurd hrun' hstop⟩
  | none =>
    cases (exec_arithmetic_raises hi hv).symm.trans h
    exact ⟨fun r _ => by cases r <;> rfl, rfl, rfl, fun _ => rfl, rfl, rfl, rfl, houtside, nofun,
      fun _ => ⟨by cases d <;> rfl, rfl, rfl⟩⟩

end Sys2Proof.Machine
end

section
/-! SUPPORT. The family 42_memory_access.md: LD and ST in range, whatever form supplies the address, and what LD leaves. -/

namespace Sys2Proof.Machine

/-! ### Loads and stores in range (R130 to R133) -/

section
variable {i : Instr} {r : Reg} {a : Addressing} {n : Nat} {s t : State}

/-- An instruction that loads completes where its address is in data memory (R44, R130, R131). -/
theorem exec_load_completes (hi : bodyOf i = load r a) (ha : a.address s = n) (hn : n < s.cfg.memSize) :
    exec i s = .next { s.setReg r (s.dmem.read n) with pc := s.pc + 1#32 } :=
  exec_done (by rw [hi, load_eq, ha, if_neg (Nat.not_le.2 hn)])

/-- An instruction that stores completes where its address is in data memory (R45, R132, R133). -/
theorem exec_store_completes (hi : bodyOf i = store r a) (ha : a.address s = n) (hn : n < s.cfg.memSize) :
    exec i s = .next { s.passed (s.getReg r) with dmem := s.dmem.write n (s.getReg r), pc := s.pc + 1#32 } :=
  exec_done (by rw [hi, store_eq, ha, if_neg (Nat.not_le.2 hn)])

/-- Everything LD can answer: one register loaded, or the fault taken (R44, R173). -/
theorem exec_load_cases (hi : bodyOf i = load r a) (h : exec i s = .next t) :
    t = { s.setReg r (s.dmem.read (a.address s)) with pc := s.pc + 1#32 } ∨
    ∃ f, t = s.takeFault f s.pc s.currentWord false := by
  by_cases hm : s.cfg.memSize ≤ a.address s
  · cases (exec_raised (by rw [hi, load_eq, if_pos hm])).symm.trans h
    exact .inr ⟨_, rfl⟩
  · cases (exec_load_completes hi rfl (Nat.lt_of_not_le hm)).symm.trans h
    exact .inl rfl

end

/-- Settles O18: both forms are `load`, at the literal and at the address register's word. -/
theorem loadsComplete : Obligations.LoadsComplete := fun _ s =>
  ⟨fun n hn hm => exec_load_completes rfl (address_absolute s n hn) hm, fun _ hm => exec_load_completes rfl rfl hm⟩

/-- Settles O19: both forms are `store`, at the literal and at the address register's word. -/
theorem storesComplete : Obligations.StoresComplete := fun _ s =>
  ⟨fun n hn hm => exec_store_completes rfl (address_absolute s n hn) hm, fun _ hm => exec_store_completes rfl rfl hm⟩

/-! ### What LD leaves unchanged (R130, R131, R134) -/

/-- Settles O21: both forms are `load`, which writes its register and the pc or takes its fault. -/
theorem loadFrame : Obligations.LoadFrame := by
  intro r a n i s t hi h
  have hload : ∃ addressing, bodyOf i = load r addressing := by
    rcases hi with rfl | rfl
    · exact ⟨.absolute n, rfl⟩
    · exact ⟨.registerIndirect a, rfl⟩
  obtain ⟨addressing, hbody⟩ := hload
  have houtside : s.SameOutside t := (exec_keeps h).outside
  rcases exec_load_cases hbody h with rfl | ⟨f, rfl⟩
  · exact ⟨fun q hq => getReg_setReg_other s r q _ hq, fun b => congrArg (·.read b) (setReg_dmem s r _),
      setReg_sp s r _, setReg_outBuf s r _, setReg_aluL s r _, setReg_aluR s r _, setReg_aluOut s r _,
      setReg_openHandlers s r _, houtside⟩
  · exact ⟨fun q _ => by cases q <;> rfl, fun _ => rfl, rfl, rfl, rfl, rfl, rfl, rfl, houtside⟩

end Sys2Proof.Machine
end

section
/-! SUPPORT. The family 43_output.md: OUT. -/

namespace Sys2Proof.Machine

/-- Settles O23: `output` has no branch that raises, so its body's equation is the instruction's next state in every state
(R140). -/
theorem outCompletes : Obligations.OutCompletes := fun r s => exec_done (output_eq r s)

end Sys2Proof.Machine
end

section
/-! SUPPORT. The family 44_control_transfer.md: the next state of JMP, JE, CALL, RET and HLT, completed and faulted, RST's
stack faults, and what these instructions leave unchanged. -/

namespace Sys2Proof.Machine

/-! ### The next state of each instruction (R145 to R148) -/

section
variable {r : Reg} {n : Nat} {s t : State}

theorem exec_jmp : exec (.jmp n) s = .next { s with pc := zextW n } := exec_done rfl

theorem exec_je : exec (.je r n) s = .next { s with pc := if s.getReg r = 0#32 then zextW n else s.pc + 1#32 } :=
  exec_done (jumpIfZero_eq r n s)

theorem exec_hlt : exec .hlt s = .next { s with runState := .halted } := exec_done rfl

/-- CALL with room on the stack pushes its own address (R147). -/
theorem exec_call_completes (h0 : s.sp ≠ 0) (hm : s.sp < s.cfg.memSize) :
    exec (.call n) s =
      .next { s.passed s.pc with dmem := s.dmem.write s.sp s.pc, sp := s.sp - 1, pc := zextW n } :=
  exec_done (by rw [bodyOf, callTo_eq, if_neg h0, if_neg (Nat.not_le.2 hm)])

/-- RET of a known word loads it whole (R148). -/
theorem exec_ret_word {a : Nat} {v : Word} (ha : s.sp + 1 = a) (hm : a < s.cfg.memSize) (hv : s.dmem.read a = v) :
    exec .ret s = .next { s with sp := a, pc := v } :=
  exec_done (by rw [bodyOf, returnFromCall, andThen_done (pop_word ha hm hv), setPc_eq])

/-- CALL with no room raises before it writes memory; its value has passed the ALU (R47, R50, R147). -/
theorem exec_call_overflow (h : s.sp = 0) :
    exec (.call n) s = .next ((s.passed s.pc).takeFault .stackOverflow s.pc s.currentWord false) :=
  exec_raised (by rw [bodyOf, callTo_eq, if_pos h])

/-- RET with no word on the stack raises before it moves the pointer (R48, R148). -/
theorem exec_ret_underflow (h : s.sp = s.cfg.memSize - 1) :
    exec .ret s = .next (s.takeFault .stackUnderflow s.pc s.currentWord false) :=
  exec_raised (by rw [bodyOf, returnFromCall_eq, if_pos h])

/-- Everything CALL can answer: one word pushed, or the fault taken after the ALU pass (R147, R173). -/
theorem exec_call_cases (h : exec (.call n) s = .next t) :
    t = { s.passed s.pc with dmem := s.dmem.write s.sp s.pc, sp := s.sp - 1, pc := zextW n } ∨
    ∃ f, t = (s.passed s.pc).takeFault f s.pc s.currentWord false := by
  by_cases h0 : s.sp = 0
  · cases (exec_call_overflow h0).symm.trans h
    exact .inr ⟨_, rfl⟩
  by_cases hm : s.cfg.memSize ≤ s.sp
  · cases (exec_raised (by rw [bodyOf, callTo_eq, if_neg h0, if_pos hm])).symm.trans h
    exact .inr ⟨_, rfl⟩
  · cases (exec_call_completes h0 (Nat.lt_of_not_le hm)).symm.trans h
    exact .inl rfl

/-- Everything RET can answer: one word popped into the pc, or the fault taken, with the pointer where it then is (R148,
R173). -/
theorem exec_ret_cases (h : exec .ret s = .next t) :
    t = { s with sp := s.sp + 1, pc := s.dmem.read (s.sp + 1) } ∨
    ∃ f a, t = State.takeFault { s with sp := a } f s.pc s.currentWord false := by
  by_cases hempty : s.sp = s.cfg.memSize - 1
  · cases (exec_ret_underflow hempty).symm.trans h
    exact .inr ⟨_, _, rfl⟩
  by_cases hm : s.cfg.memSize ≤ s.sp + 1
  · cases (exec_raised (by rw [bodyOf, returnFromCall_eq, if_neg hempty, if_pos hm])).symm.trans h
    exact .inr ⟨_, _, rfl⟩
  · cases (exec_ret_word rfl (Nat.lt_of_not_le hm) rfl).symm.trans h
    exact .inl rfl

end

/-! ### What control transfer leaves unchanged (R145 to R148, R161) -/

/-- JMP, JE, RET and HLT write the pc, the stack pointer and the run state at most, and only RET the stack pointer. -/
theorem exec_writes_pc_sp_runState {r : Reg} {n : Nat} {i : Instr} {s t : State}
    (hi : i = .jmp n ∨ i = .je r n ∨ i = .ret ∨ i = .hlt) (h : exec i s = .next t) :
    ∃ p a x, t = { s with pc := p, sp := a, runState := x } ∧ (i ≠ .ret → a = s.sp) := by
  rcases hi with rfl | rfl | rfl | rfl
  · cases exec_jmp.symm.trans h
    exact ⟨_, _, _, rfl, fun _ => rfl⟩
  · cases exec_je.symm.trans h
    exact ⟨_, _, _, rfl, fun _ => rfl⟩
  · rcases exec_ret_cases h with rfl | ⟨f, a, rfl⟩
    · exact ⟨_, _, _, rfl, fun hne => absurd rfl hne⟩
    · exact ⟨_, _, _, rfl, fun hne => absurd rfl hne⟩
  · cases exec_hlt.symm.trans h
    exact ⟨_, _, _, rfl, fun _ => rfl⟩

/-- CALL leaves every word of memory but the one at the stack pointer, completed or raised (R147). -/
theorem exec_call_frame {n : Nat} {s t : State} (h : exec (.call n) s = .next t) :
    (∀ q, t.getReg q = s.getReg q) ∧ t.outBuf = s.outBuf ∧ t.openHandlers = s.openHandlers ∧
    s.SameMemoryBut t (Addressing.stackPush.address s) := by
  rcases exec_call_cases h with rfl | ⟨f, rfl⟩
  · exact ⟨fun q => by cases q <;> rfl, rfl, rfl, fun b hb => Memory.read_write_other _ _ _ _ hb⟩
  · exact ⟨fun q => by cases q <;> rfl, rfl, rfl, fun _ _ => rfl⟩

/-- Settles O29: CALL has its own frame; the other four write the pc, the stack pointer and the run state at most. -/
theorem controlTransferFrame : Obligations.ControlTransferFrame := by
  intro r n i s t hi h
  have houtside : s.SameOutside t := (exec_keeps h).outside
  by_cases hcall : i = .call n
  · subst hcall
    obtain ⟨hreg, hout, hopen, hmem⟩ := exec_call_frame h
    exact ⟨hreg, hout, hopen, houtside, fun hne => absurd rfl hne, fun _ => hmem, fun hne => absurd rfl hne⟩
  · have hother : i = .jmp n ∨ i = .je r n ∨ i = .ret ∨ i = .hlt := by tauto
    obtain ⟨p, a, x, rfl, hsp⟩ := exec_writes_pc_sp_runState hother h
    exact ⟨fun q => by cases q <;> rfl, rfl, rfl, houtside, fun _ => ⟨fun _ => rfl, rfl, rfl, rfl⟩,
      fun heq => absurd heq hcall, fun _ => hsp⟩

/-! ### Stack balance (R149) -/

/-- Fetch reads instruction memory and the pc only (R101). -/
theorem fetch_congr {s t : State} (himem : t.imem = s.imem) (hpc : t.pc = s.pc) : fetch t = fetch s := by
  rw [fetch, fetch, himem, hpc]

/-- Settles O32: CALL saves its address at the old stack pointer, one above the callee's, and RET pops that word. -/
theorem stackBalance : Obligations.StackBalance := by
  intro n s t callee inv h0 h hcfg himem hsp hsaved
  have hm : s.sp < s.cfg.memSize := by have := inv.stack; have := inv.config.1; omega
  cases (exec_call_completes h0 hm).symm.trans h
  have hback : callee.sp + 1 = s.sp := by rw [hsp]; exact Nat.succ_pred h0
  have hword : callee.dmem.read s.sp = s.pc := hsaved.trans (Memory.read_write_same _ _ _ inv.memory)
  exact ⟨_, exec_ret_word hback (by rwa [hcfg]) hword, rfl, rfl, rfl, fetch_congr himem rfl⟩

/-! ### Completion and the stack faults (R145 to R148, R160) -/

/-- Settles O24: JE's target depends on the tested register alone. -/
theorem jumpsComplete : Obligations.JumpsComplete := fun r n s =>
  ⟨exec_jmp, fun hzero => by rw [exec_je, if_pos hzero], fun hne => by rw [exec_je, if_neg hne]⟩

/-- Settles O25: with room CALL's push completes, and with a word on the stack RET's pop does. -/
theorem callAndReturnComplete : Obligations.CallAndReturnComplete := fun _ _ =>
  ⟨exec_call_completes, fun h => exec_ret_word rfl (by omega) rfl⟩

/-- Settles O28: the push or pop that finds no room or no word raises, in the state the earlier pops left. -/
theorem stackFaults : Obligations.StackFaults := fun _ s =>
  ⟨exec_call_overflow, fun h => ⟨exec_ret_underflow h, exec_raised (interruptReturn_empty s h)⟩,
    fun h => exec_raised (interruptReturn_one s h), fun h => exec_raised (interruptReturn_two s h),
    fun h => exec_raised (interruptReturn_three s h)⟩

end Sys2Proof.Machine
end

section
/-! SUPPORT. The family 45_system.md: the next state of RST and HLT, and what RST leaves unchanged. -/

namespace Sys2Proof.Machine

/-! ### The next state of RST (R160, R173) -/

section
variable {s t : State}

/-- RST with four words on the stack pops all four: one discarded, the pc, R2 and R1 (R160). -/
theorem exec_rst_completes (h : s.sp + 4 < s.cfg.memSize) :
    exec .rst s = .next { s.passed (s.dmem.read (s.sp + 2)) with
      pc := s.dmem.read (s.sp + 2), r2 := s.dmem.read (s.sp + 3), r1 := s.dmem.read (s.sp + 4)
      sp := s.sp + 4, openHandlers := s.openHandlers - 1 } :=
  exec_done (interruptReturn_room s (by omega))

/-- Everything RST can answer: four words popped, or the fault taken at one of the pops, before R1 is written and the handler
counted as ended (R160, R173). -/
theorem exec_rst_cases (h : exec .rst s = .next t) :
    t = { s.passed (s.dmem.read (s.sp + 2)) with
      pc := s.dmem.read (s.sp + 2), r2 := s.dmem.read (s.sp + 3), r1 := s.dmem.read (s.sp + 4)
      sp := s.sp + 4, openHandlers := s.openHandlers - 1 } ∨
    ∃ f p l r o q a, t = State.takeFault { s with pc := p, aluL := l, aluR := r, aluOut := o, r2 := q, sp := a }
      f s.pc s.currentWord false := by
  rcases interruptReturn_cases s with ⟨-, hbody⟩ | ⟨f, p, l, r, o, q, a, hbody, -⟩
  · cases (exec_done (i := .rst) hbody).symm.trans h
    exact .inl rfl
  · cases (exec_raised (i := .rst) hbody).symm.trans h
    exact .inr ⟨f, p, l, r, o, q, a, rfl⟩

end

/-- Settles O26: RST's body has an equation for a stack of four words, whether a handler is open or not. -/
theorem interruptReturnCompletes : Obligations.InterruptReturnCompletes := fun _ => exec_rst_completes

/-- Settles O27: HLT's body has no branch that raises and writes the run state alone. -/
theorem haltCompletes : Obligations.HaltCompletes := fun _ => exec_hlt

/-! ### What RST leaves unchanged (R48, R160, R182) -/

/-- Settles O30, by whether all four pops were made: no pop writes memory, and R1 and the count are written after the last. -/
theorem interruptReturnFrame : Obligations.InterruptReturnFrame := by
  intro s t hrun h
  have houtside : s.SameOutside t := (exec_keeps h).outside
  rcases exec_rst_cases h with rfl | ⟨f, p, l, r, o, q, a, rfl⟩
  · exact ⟨fun _ => rfl, rfl, houtside, fun hstop => absurd hrun hstop⟩
  · exact ⟨fun _ => rfl, rfl, houtside, fun _ => ⟨rfl, rfl⟩⟩

end Sys2Proof.Machine
end

section
/-! SUPPORT. The family 60_exceptions.md: interrupt entry with and without room, its frame and the return from it, what an
instruction that raises records and leaves, the interruption flag, and where a step stops. -/

namespace Sys2Proof.Machine

/-! ### Every instruction answers (R173) -/

/-- Settles O45: every instruction is the execution of its body, and a body that raises still leaves a state. -/
theorem everyInstructionAnswers : Obligations.EveryInstructionAnswers := by
  intro i s
  rw [exec_eq_execute]
  exact execute_next (bodyOf i) s

/-! ### An instruction that faults (R171, R172, R173) -/

section
variable {i : Instr} {s t : State} {f : ExecFault}

/-- A running instruction ends `Faulted` only by a raise of its body, and the record names the instruction (R172). -/
theorem exec_faulted {record : FaultRecord} (hrun : s.runState = .running) (h : exec i s = .next t)
    (hf : t.runState = .faulted record) :
    ∃ f u, bodyOf i s = .raised f u ∧ record = FaultRecord.of f s.pc s.currentWord s.tick false := by
  rcases exec_cases h with hdone | ⟨f, u, hraised, rfl⟩
  · rcases (bodyOf_done_keeps hdone).2 with hsame | ⟨-, hhalted⟩
    · cases (hsame.trans hrun).symm.trans hf
    · cases hhalted.symm.trans hf
  · cases hf
    exact ⟨f, u, hraised, by rw [(bodyOf_raised_keeps hraised).1.outside.tick]⟩

theorem aluResult_eq_none {op : AluOp} {l r : Word} : aluResult op l r = none ↔ op = .div ∧ r = 0#32 := by
  cases op with
  | div => rw [aluResult_div_eq_none, and_iff_right rfl]
  | add | sub | mul => exact ⟨nofun, nofun⟩

/-- Of the arithmetic instructions only DIV raises, and only by 0 (R115, R171). -/
theorem arithmetic_raised {op : AluOp} {d : Reg} {left right : LatchSource}
    (hi : arithmeticOf i = some (op, d, left, right)) (h : bodyOf i s = .raised f t) :
    op = .div ∧ f = .divisionByZero ∧ right.value s = 0#32 := by
  rw [bodyOf_arithmetic hi] at h
  cases hv : aluResult op (left.value s) (right.value s) with
  | some v => rw [hv] at h; cases h
  | none =>
    rw [hv] at h
    cases h
    obtain ⟨hop, hzero⟩ := aluResult_eq_none.1 hv
    exact ⟨hop, rfl, hzero⟩

/-- LD raises only at or above MEM_SIZE, with the address it computed (R44). -/
theorem load_raised {r : Reg} {a : Addressing} {address : Word} (ha : a.address s = uint address)
    (h : load r a s = .raised f t) : f = .dataAddressOutOfRange address ∧ s.cfg.memSize ≤ uint address := by
  by_cases hm : s.cfg.memSize ≤ uint address
  · cases (load_outOfRange ha hm).symm.trans h
    exact ⟨rfl, hm⟩
  · rw [load_eq, ha, if_neg hm] at h
    cases h

/-- ST raises only at or above MEM_SIZE, with the address it computed (R45). -/
theorem store_raised {r : Reg} {a : Addressing} {address : Word} (ha : a.address s = uint address)
    (h : store r a s = .raised f t) : f = .dataAddressOutOfRange address ∧ s.cfg.memSize ≤ uint address := by
  by_cases hm : s.cfg.memSize ≤ uint address
  · cases (store_outOfRange ha hm).symm.trans h
    exact ⟨rfl, hm⟩
  · rw [store_eq, ha, if_neg hm] at h
    cases h

theorem State.Inv.sp_lt_memSize (inv : s.Inv) : s.sp < s.cfg.memSize := by
  have := inv.stack
  have := inv.config.1
  omega

/-- CALL raises only with no free word (R47). -/
theorem callTo_raised {n : Nat} (inv : s.Inv) (h : callTo n s = .raised f t) : f = .stackOverflow ∧ s.sp = 0 := by
  rw [callTo_eq, if_neg (Nat.not_le.2 inv.sp_lt_memSize)] at h
  split at h
  · cases h
    exact ⟨rfl, by assumption⟩
  · cases h

/-- RET raises only on an empty stack (R48). -/
theorem returnFromCall_raised (inv : s.Inv) (h : returnFromCall s = .raised f t) :
    f = .stackUnderflow ∧ s.sp = s.cfg.memSize - 1 := by
  have hm := inv.sp_lt_memSize
  rw [returnFromCall_eq] at h
  split at h
  · cases h
    exact ⟨rfl, by assumption⟩
  · rw [if_neg (by omega)] at h
    cases h

/-- RST raises only with fewer than four words on the stack (R160). -/
theorem interruptReturn_raised (inv : s.Inv) (h : interruptReturn s = .raised f t) :
    f = .stackUnderflow ∧ s.cfg.memSize ≤ s.sp + 4 := by
  have hm := inv.sp_lt_memSize
  have hfew : s.cfg.memSize ≤ s.sp + 4 := by
    by_contra hroom
    cases (interruptReturn_room s (by omega)).symm.trans h
  rcases interruptReturn_cases s with ⟨-, hdone⟩ | ⟨g, p, l, r, o, q, n, hraised, ⟨rfl, -, -⟩ | ⟨houtside, -⟩⟩
  · cases hdone.symm.trans h
  · cases hraised.symm.trans h
    exact ⟨rfl, hfew⟩
  · omega

end

/-- Settles O53: the record is made by `execute` from the state before the body, and no body changes the tick. -/
theorem faultRecordNamesInstruction : Obligations.FaultRecordNamesInstruction := by
  intro i s t record hrun h hf
  obtain ⟨f, u, -, rfl⟩ := exec_faulted hrun h hf
  exact ⟨rfl, rfl, rfl, rfl⟩

/-- Settles O50: OUT, the one instruction that appends, never raises; the rest is what every instruction keeps. -/
theorem faultLeavesOutput : Obligations.FaultLeavesOutput := by
  rintro i s t hrun h ⟨record, hf⟩
  refine ⟨?_, (exec_keeps h).outside⟩
  rcases exec_outBuf h with hsame | ⟨r, rfl, -⟩
  · exact hsame
  · obtain ⟨f, u, hraised, -⟩ := exec_faulted hrun h hf
    cases (output_eq r s).symm.trans hraised

/-- Settles O54, instruction by instruction: each body raises only where its own equation has a raise. -/
theorem onlyListedFaults : Obligations.OnlyListedFaults := by
  intro i s t record inv hrun h hf
  obtain ⟨f, u, hb, rfl⟩ := exec_faulted hrun h hf
  cases i with
  | addReg | addImm | subReg | subImm | mulReg | mulImm =>
    obtain ⟨hop, -⟩ := arithmetic_raised rfl hb
    cases hop
  | divReg d q =>
    obtain ⟨-, hfault, hzero⟩ := arithmetic_raised rfl hb
    exact .inl ⟨d, q, rfl, hfault, hzero⟩
  | divImm d n =>
    obtain ⟨-, hfault, hzero⟩ := arithmetic_raised rfl hb
    exact .inr (.inl ⟨d, n, rfl, hfault, hzero⟩)
  | jmp n => cases hb
  | je r n => cases (jumpIfZero_eq r n s).symm.trans hb
  | call n => exact .inr (.inr (.inl ⟨n, rfl, callTo_raised inv hb⟩))
  | ret => exact .inr (.inr (.inr (.inl ⟨rfl, returnFromCall_raised inv hb⟩)))
  | rst => exact .inr (.inr (.inr (.inr (.inl ⟨rfl, interruptReturn_raised inv hb⟩))))
  | ldImm r n => exact .inr (.inr (.inr (.inr (.inr (.inl ⟨r, n, .inl rfl, load_raised rfl hb⟩)))))
  | stImm r n => exact .inr (.inr (.inr (.inr (.inr (.inl ⟨r, n, .inr rfl, store_raised rfl hb⟩)))))
  | ldReg r a => exact .inr (.inr (.inr (.inr (.inr (.inr ⟨r, a, .inl rfl, load_raised rfl hb⟩)))))
  | stReg r a => exact .inr (.inr (.inr (.inr (.inr (.inr ⟨r, a, .inr rfl, store_raised rfl hb⟩)))))
  | out r => cases (output_eq r s).symm.trans hb
  | hlt => cases hb

/-! ### The interrupt frame (R178, R179) -/

/-- Memory `m` holds R1, R2 and the pc of `s` from the stack pointer of `s` down (R179). -/
structure Memory.HoldsFrame (m : Memory) (s : State) : Prop where
  r1 : m.read s.sp = s.r1
  r2 : m.read (s.sp - 1) = s.r2
  pc : m.read (s.sp - 2) = s.pc

section
variable {s : State}

/-- The three pushes of interrupt entry write three different words (R178). -/
theorem entered_holdsFrame (inv : s.Inv) (h3 : 3 ≤ s.sp) : s.entered.dmem.HoldsFrame s := by
  have wf1 := Memory.write_wf _ inv.memory s.sp s.r1
  have wf2 := Memory.write_wf _ wf1 (s.sp - 1) s.r2
  refine ⟨?_, ?_, Memory.read_write_same _ _ _ wf2⟩
  · rw [Memory.read_write_other _ _ _ _ (by omega), Memory.read_write_other _ _ _ _ (by omega),
      Memory.read_write_same _ _ _ inv.memory]
  · rw [Memory.read_write_other _ _ _ _ (by omega), Memory.read_write_same _ _ _ wf1]

theorem entered_read_other {a : Nat} (h0 : a ≠ s.sp) (h1 : a ≠ s.sp - 1) (h2 : a ≠ s.sp - 2) :
    s.entered.dmem.read a = s.dmem.read a := by
  rw [Memory.read_write_other _ _ _ _ h2, Memory.read_write_other _ _ _ _ h1, Memory.read_write_other _ _ _ _ h0]

/-- A word written below the frame leaves the frame. -/
theorem Memory.HoldsFrame.write {m : Memory} {a : Nat} (h : m.HoldsFrame s) (ha : a < s.sp - 2) (v : Word) :
    (m.write a v).HoldsFrame s where
  r1 := (Memory.read_write_other _ _ _ _ (by omega)).trans h.r1
  r2 := (Memory.read_write_other _ _ _ _ (by omega)).trans h.r2
  pc := (Memory.read_write_other _ _ _ _ (by omega)).trans h.pc

/-- The trampoline's CALL after interrupt entry pushes the pc 0 below the frame (R179). -/
theorem trampoline_completes {w : InsnWord} {t : State} (inv : s.Inv) (h4 : 4 ≤ s.sp) (hq : s.inQueue ≠ [])
    (ht : interruptEntry w s = .next t) (n : Nat) :
    ∃ u, exec (.call n) t = .next u ∧ u.cfg = s.cfg ∧ u.sp = s.sp - 4 ∧ u.pc = zextW n ∧ u.dmem.HoldsFrame s ∧
      u.dmem.read (s.sp - 3) = 0#32 := by
  have hm := inv.sp_lt_memSize
  obtain ⟨e, rest, hq⟩ := List.exists_cons_of_ne_nil hq
  cases (interruptEntry_room w s e rest (by omega) hm hq).symm.trans ht
  have hwf := (entered_memory inv hm).1
  exact ⟨_, exec_call_completes (by dsimp only; omega) (by dsimp only; omega), rfl, Nat.sub_sub s.sp 3 1, rfl,
    (entered_holdsFrame inv (by omega)).write (by dsimp only; omega) _, Memory.read_write_same _ _ _ hwf⟩

/-- RST four words below the old pointer restores the frame (R160, R182). -/
theorem exec_rst_frame {t : State} (hsp : t.sp + 4 = s.sp) (hm : s.sp < t.cfg.memSize) (hframe : t.dmem.HoldsFrame s) :
    exec .rst t = .next { t.passed s.pc with
      pc := s.pc, r2 := s.r2, r1 := s.r1, sp := s.sp, openHandlers := t.openHandlers - 1 } := by
  obtain ⟨h1, h2, hpc⟩ := hframe
  rw [exec_rst_completes (by omega), hsp, h1, show t.sp + 3 = s.sp - 1 by omega, h2, show t.sp + 2 = s.sp - 2 by omega, hpc]

end

/-- Settles O33: the state interrupt entry answers is known field by field, its memory by the frame's lemmas. -/
theorem interruptEntryCompletes : Obligations.InterruptEntryCompletes := by
  intro w e rest s inv h3 hq
  obtain ⟨h1, h2, hpc⟩ := entered_holdsFrame inv h3
  exact ⟨_, interruptEntry_room w s e rest h3 inv.sp_lt_memSize hq, rfl, rfl, rfl, rfl, rfl, h1, h2, hpc,
    fun a => entered_read_other, rfl, rfl, rfl, rfl, rfl, rfl, rfl⟩

/-- Settles O34: the push that finds no room raises; which words were written before it depends on the three values of sp. -/
theorem interruptEntryOverflow : Obligations.InterruptEntryOverflow := by
  intro w s inv h3
  obtain ⟨l, hraised⟩ := entryFrame_overflow s h3 inv.sp_lt_memSize
  refine ⟨_, interruptEntry_raised w hraised, rfl, rfl, rfl, rfl, rfl, rfl, rfl, rfl, rfl, ?_⟩
  rcases (by omega : s.sp = 0 ∨ s.sp = 1 ∨ s.sp = 2) with hsp | hsp | hsp <;> simp only [takeFault_dmem, hsp]
  · exact ⟨nofun, nofun, fun _ _ => rfl⟩
  · exact ⟨fun _ => Memory.read_write_same _ _ _ inv.memory, nofun,
      fun a ha => Memory.read_write_other _ _ _ _ (by omega)⟩
  · refine ⟨fun _ => ?_, fun _ => ?_, fun a ha => ?_⟩
    · exact (Memory.read_write_other _ 1 2 _ (by decide)).trans (Memory.read_write_same _ _ _ inv.memory)
    · exact Memory.read_write_same _ _ _ (Memory.write_wf _ inv.memory _ _)
    · exact (Memory.read_write_other _ _ _ _ (by omega)).trans (Memory.read_write_other _ _ _ _ (by omega))

/-- Settles O35: interrupt entry by O33, the fourth word by the trampoline's CALL. -/
theorem interruptFrameLayout : Obligations.InterruptFrameLayout := by
  intro w e rest s inv h3 hq
  obtain ⟨t, ht, -, hpc, -, -, hsp, hold1, hold2, holdPc, -⟩ := interruptEntryCompletes w e rest s inv h3 hq
  refine ⟨t, ht, hsp, hpc, hold1, hold2, holdPc, fun h4 n => ?_⟩
  obtain ⟨u, hu, -, husp, hupc, ⟨h1, h2, hframePc⟩, hzero⟩ := trampoline_completes inv h4 (by simp [hq]) ht n
  exact ⟨u, hu, husp, hupc, h1, h2, hframePc, hzero⟩

/-- Settles O36: the handler still holds the frame the trampoline left, so RST pops it. -/
theorem interruptTransparency : Obligations.InterruptTransparency := by
  intro w n s t u handler inv hflag h4 ht hu hcfg hsp hkeep
  obtain ⟨u', hu', hucfg, husp, -, hframe, -⟩ := trampoline_completes inv h4 (inv.pending hflag) ht n
  cases hu'.symm.trans hu
  have held : handler.dmem.HoldsFrame s :=
    ⟨(hkeep _ (by omega) (by omega)).trans hframe.r1, (hkeep _ (by omega) (by omega)).trans hframe.r2,
      (hkeep _ (by omega) (by omega)).trans hframe.pc⟩
  have hm : s.sp < handler.cfg.memSize := by rw [hcfg, hucfg]; exact inv.sp_lt_memSize
  exact ⟨_, exec_rst_frame (by omega) hm held, rfl, rfl, rfl, rfl, rfl, fun _ => rfl, rfl, rfl, rfl⟩

/-! ### No instruction reads or writes the interruption flag (R176) -/

/-- The state with another value of the flag. -/
abbrev State.withFlag (b : Bool) (s : State) : State := { s with irqFlag := b }

section
variable {b : Bool}

theorem getReg_withFlag (s : State) (r : Reg) : (s.withFlag b).getReg r = s.getReg r := by cases r <;> rfl

theorem setReg_withFlag (s : State) (r : Reg) (v : Word) :
    (s.withFlag b).setReg r v = (s.setReg r v).withFlag b := by cases r <;> rfl

theorem value_withFlag (s : State) (source : LatchSource) : source.value (s.withFlag b) = source.value s := by
  cases source with
  | reg r => exact getReg_withFlag s r
  | literal v => rfl

theorem address_withFlag (s : State) (a : Addressing) : a.address (s.withFlag b) = a.address s := by
  cases a with
  | absolute n => rfl
  | registerIndirect r => exact congrArg uint (getReg_withFlag s r)
  | stackPush => rfl
  | stackPop => rfl

/-- The eight arithmetic forms: neither the operands nor what is written depends on the flag. -/
theorem arithmetic_ignores_flag {i : Instr} {op : AluOp} {d : Reg} {left right : LatchSource}
    (hi : arithmeticOf i = some (op, d, left, right)) : Micro.Commutes (State.withFlag b) (bodyOf i) := by
  intro s
  rw [bodyOf_arithmetic hi, bodyOf_arithmetic hi, value_withFlag s left, value_withFlag s right]
  cases aluResult op (left.value s) (right.value s) with
  | none => rfl
  | some v => cases d <;> rfl

theorem load_ignores_flag (r : Reg) (a : Addressing) : Micro.Commutes (State.withFlag b) (load r a) := by
  intro s
  rw [load_eq, load_eq, address_withFlag, setReg_withFlag, apply_ite (MicroResult.mapState _)]
  rfl

theorem store_ignores_flag (r : Reg) (a : Addressing) : Micro.Commutes (State.withFlag b) (store r a) := by
  intro s
  rw [store_eq, store_eq, address_withFlag, getReg_withFlag, apply_ite (MicroResult.mapState _)]
  rfl

theorem output_ignores_flag (r : Reg) : Micro.Commutes (State.withFlag b) (output r) := by
  intro s
  rw [output_eq, output_eq, getReg_withFlag]
  rfl

theorem jumpIfZero_ignores_flag (r : Reg) (n : Nat) : Micro.Commutes (State.withFlag b) (jumpIfZero r n) := by
  intro s
  rw [jumpIfZero_eq, jumpIfZero_eq, getReg_withFlag]
  rfl

theorem callTo_ignores_flag (n : Nat) : Micro.Commutes (State.withFlag b) (callTo n) := by
  intro s
  rw [callTo_eq n s, apply_ite (MicroResult.mapState _), apply_ite (MicroResult.mapState _)]
  exact callTo_eq n (s.withFlag b)

theorem pop_ignores_flag : Micro.Commutes (State.withFlag b) pop := by
  intro s
  rw [pop_eq s, apply_ite (MicroResult.mapState _), apply_ite (MicroResult.mapState _)]
  exact pop_eq (s.withFlag b)

theorem throughAlu_ignores_flag (source : LatchSource) : Micro.Commutes (State.withFlag b) (throughAlu source) := by
  intro s
  rw [throughAlu_eq, throughAlu_eq, value_withFlag]
  rfl

theorem latchRegister_ignores_flag (r : Reg) (v : Word) : Micro.Commutes (State.withFlag b) (latchRegister r v) := by
  intro s
  rw [latchRegister_eq, latchRegister_eq, setReg_withFlag]
  rfl

theorem setPc_ignores_flag (a : Word) : Micro.Commutes (State.withFlag b) (setPc a) := fun _ => rfl

theorem returnFromCall_ignores_flag : Micro.Commutes (State.withFlag b) returnFromCall :=
  pop_ignores_flag.andThen setPc_ignores_flag

theorem interruptReturn_ignores_flag : Micro.Commutes (State.withFlag b) interruptReturn :=
  pop_ignores_flag.andThen fun _ => pop_ignores_flag.andThen fun _ =>
  (throughAlu_ignores_flag _).andThen fun _ => (setPc_ignores_flag _).andThen fun _ =>
  pop_ignores_flag.andThen fun _ => (latchRegister_ignores_flag _ _).andThen fun _ =>
  pop_ignores_flag.andThen fun _ => (latchRegister_ignores_flag _ _).andThen fun _ => fun _ => rfl

theorem bodyOf_ignores_flag (i : Instr) : Micro.Commutes (State.withFlag b) (bodyOf i) := by
  cases i with
  | addReg | addImm | subReg | subImm | mulReg | mulImm | divReg | divImm => exact arithmetic_ignores_flag rfl
  | jmp n => exact setPc_ignores_flag _
  | je r n => exact jumpIfZero_ignores_flag r n
  | call n => exact callTo_ignores_flag n
  | ret => exact returnFromCall_ignores_flag
  | ldReg r a => exact load_ignores_flag r _
  | ldImm r n => exact load_ignores_flag r _
  | stReg r a => exact store_ignores_flag r _
  | stImm r n => exact store_ignores_flag r _
  | out r => exact output_ignores_flag r
  | rst => exact interruptReturn_ignores_flag
  | hlt => exact fun _ => rfl

theorem exec_ignores_flag (i : Instr) : OutcomeCommutes (State.withFlag b) (exec i) := by
  rw [funext (exec_eq_execute i)]
  exact .execute (bodyOf_ignores_flag i) (fun _ => rfl) (fun _ => rfl) fun _ _ _ _ _ => rfl

end

/-! ### The flag through a step (R100, R104, R107) -/

/-- Interrupt entry clears the flag first, so a push that raises finds it cleared (R178, R187). -/
theorem interruptEntry_irqFlag {w : InsnWord} {s t : State} (h : interruptEntry w s = .next t) : t.irqFlag = false := by
  rcases interruptEntry_cases w s with ⟨e, rest, -, -, -, hi⟩ | ⟨-, hi⟩ | ⟨f, l, n, d, hi, -⟩ <;> cases hi.symm.trans h
  · rfl
  · rfl

/-- After the instruction the flag changes only by interrupt entry (R104). -/
theorem afterExecute_irqFlag {w : InsnWord} {s u : State} (h : afterExecute w s = .next u) :
    u.irqFlag = s.irqFlag ∨ s.irqFlag = true ∧ ∃ t, interruptEntry w s = .next t ∧ u = advanceTick t := by
  rcases afterExecute_cases h with ⟨-, rfl⟩ | ⟨-, -, rfl⟩ | ⟨-, hflag, hentry⟩
  · exact .inl rfl
  · exact .inl (advanceTick_irqFlag s)
  · exact .inr ⟨hflag, hentry⟩

/-- The flag after a step is the one before it, the one the scheduling step left, or the one interrupt entry left. -/
theorem step_irqFlag {s u : State} (h : step s = .next u) :
    u.irqFlag = s.irqFlag ∨ u.irqFlag = (schedule s).irqFlag ∨
    ∃ w i t v, s.imem[uint s.pc]? = some w ∧ decode w = .ok i ∧ exec i (schedule s) = .next t ∧ t.irqFlag = true ∧
      interruptEntry w t = .next v ∧ u = countIteration (advanceTick v) := by
  rcases step_cases h with ⟨-, rfl⟩ | ⟨-, -, rfl⟩ | ⟨-, -, rfl⟩ | ⟨w, e, -, -, -, rfl⟩ |
    ⟨w, i, t, v, -, hw, hd, hexec, hafter, rfl⟩
  · exact .inl rfl
  · exact .inl rfl
  · exact .inr (.inl rfl)
  · exact .inr (.inl rfl)
  · refine .inr ?_
    rcases afterExecute_irqFlag hafter with hsame | ⟨hflag, x, hentry, rfl⟩
    · exact .inl (hsame.trans (exec_keeps hexec).outside.irqFlag)
    · exact .inr ⟨w, i, t, x, hw, hd, hexec, hflag, hentry, rfl⟩

/-- Settles O51: the instructions by `exec_ignores_flag`, the steps by the three origins of the flag a step leaves. -/
theorem interruptFlagSetByScheduleClearedByEntry : Obligations.InterruptFlagSetByScheduleClearedByEntry := by
  refine ⟨fun i _ s => exec_ignores_flag i s, fun s t h hclear hset => ?_, fun s t h hset hclear => ?_,
    fun _ _ _ => interruptEntry_irqFlag⟩
  · rcases step_irqFlag h with hsame | hsched | ⟨w, i, u, v, -, -, -, -, hentry, rfl⟩
    · cases hset.symm.trans (hsame.trans hclear)
    · rw [hset, schedule_irqFlag, hclear, Bool.or_false] at hsched
      exact hsched.symm
    · rw [countIteration_irqFlag, advanceTick_irqFlag, interruptEntry_irqFlag hentry] at hset
      cases hset
  · rcases step_irqFlag h with hsame | hsched | hentry
    · cases hclear.symm.trans (hsame.trans hset)
    · rw [hclear, schedule_irqFlag, hset, Bool.or_true] at hsched
      cases hsched
    · exact hentry

/-! ### One interrupt in flight (R177, R185) -/

/-- Interrupt entry counts at most one more open handler. -/
theorem interruptEntry_openHandlers {w : InsnWord} {s t : State} (h : interruptEntry w s = .next t) :
    t.openHandlers ≤ s.openHandlers + 1 := by
  rcases interruptEntry_cases w s with ⟨e, rest, -, -, -, hi⟩ | ⟨-, hi⟩ | ⟨f, l, n, d, hi, -⟩ <;> cases hi.symm.trans h
  · exact Nat.le_refl _
  · exact Nat.le_succ _

/-- In an admitted step an event is due only where no handler is open (R185). -/
theorem openHandlers_eq_zero_of_due {s : State} (can : s.CanStep) (hdue : s.eventDue = true) : s.openHandlers = 0 := by
  have hfree := can.collision
  rw [State.collisionFree, State.collides, hdue, Bool.true_and, Bool.or_eq_false_iff] at hfree
  simpa using hfree.2

/-- Settles O47: a running step enters an interrupt only for an event found due, and then no handler was open; without one
no flag is set. -/
theorem oneInterruptInFlight : Obligations.OneInterruptInFlight := by
  intro s u hopen hclear h
  rcases step_cases h with ⟨-, rfl⟩ | ⟨-, -, rfl⟩ | ⟨-, -, rfl⟩ | ⟨w, e, -, -, -, rfl⟩ |
    ⟨w, i, t, v, can, -, -, hexec, hafter, rfl⟩
  · exact ⟨hopen, hclear⟩
  · exact ⟨hopen, nofun⟩
  · exact ⟨(schedule_openHandlers s).trans_le hopen, nofun⟩
  · exact ⟨(schedule_openHandlers s).trans_le hopen, nofun⟩
  · have k := exec_keeps hexec
    have hcount : t.openHandlers ≤ s.openHandlers := by simpa using k.handlers
    have hdue : t.irqFlag = s.eventDue := by
      rw [k.outside.irqFlag, schedule_irqFlag, hclear can.running, Bool.or_false]
    rcases afterExecute_cases hafter with ⟨hstop, rfl⟩ | ⟨-, hflag, rfl⟩ | ⟨-, hflag, x, hentry, rfl⟩
    · exact ⟨hcount.trans hopen, fun hrun => absurd hrun hstop⟩
    · exact ⟨by simpa using hcount.trans hopen, fun _ => (advanceTick_irqFlag t).trans hflag⟩
    · have hzero := openHandlers_eq_zero_of_due can (hdue.symm.trans hflag)
      have hx := interruptEntry_openHandlers hentry
      refine ⟨?_, fun _ => (advanceTick_irqFlag x).trans (interruptEntry_irqFlag hentry)⟩
      rw [countIteration_openHandlers, advanceTick_openHandlers]
      omega

/-! ### Where a step stops (R180, R185) -/

theorem interruptEntry_answers (w : InsnWord) (s : State) :
    (∃ t, interruptEntry w s = .next t) ∨ interruptEntry w s = .fault .inputQueueEmpty ∧ s.inQueue = [] := by
  rcases interruptEntry_cases w s with ⟨e, rest, -, -, -, hi⟩ | ⟨hq, hi⟩ | ⟨f, l, n, d, hi, -⟩
  · exact .inl ⟨_, hi⟩
  · exact .inr ⟨hi, hq⟩
  · exact .inl ⟨_, hi⟩

/-- What follows an instruction stops only where interrupt entry finds no event queued (R104, R180). -/
theorem afterExecute_answers (w : InsnWord) (s : State) :
    (∃ t, afterExecute w s = .next t) ∨
    afterExecute w s = .fault .inputQueueEmpty ∧ s.irqFlag = true ∧ s.inQueue = [] := by
  by_cases hr : s.runState = .running
  · cases hflag : s.irqFlag with
    | false => exact .inl ⟨_, afterExecute_without_flag hr hflag⟩
    | true =>
      rcases interruptEntry_answers w s with ⟨t, ht⟩ | ⟨hstop, hq⟩
      · exact .inl ⟨_, afterExecute_with_flag hr hflag ht⟩
      · exact .inr ⟨by rw [afterExecute, if_pos hr, if_pos hflag, hstop]; rfl, rfl, hq⟩
  · exact .inl ⟨_, afterExecute_stopped hr⟩

/-- An iteration stops only where interrupt entry finds no event queued: fetch, decode and the instruction answer a state, and
no instruction changes the flag or the queue. -/
theorem iteration_answers (s : State) :
    (∃ t, iteration s = .next t) ∨ iteration s = .fault .inputQueueEmpty ∧ s.irqFlag = true ∧ s.inQueue = [] := by
  cases hf : fetch s with
  | error fault => exact .inl ⟨_, iteration_of_fetch_error hf⟩
  | ok w =>
    cases hd : decode w with
    | error e => exact .inl ⟨_, iteration_of_decode_error hf hd⟩
    | ok i =>
      obtain ⟨t, ht⟩ := everyInstructionAnswers i s
      obtain ⟨hflag, hqueue⟩ : t.irqFlag = s.irqFlag ∧ t.inQueue = s.inQueue :=
        ⟨(exec_keeps ht).outside.irqFlag, (exec_keeps ht).outside.inQueue⟩
      rw [iteration_of_decode hf hd, ht, onNext_next, ← hflag, ← hqueue]
      exact afterExecute_answers w t

theorem step_of_collision {s : State} (hr : s.runState = .running) (hb : s.budgetSpent = false) (hc : s.collides = true) :
    step s = .refused .inputCollision := by
  rw [step, driverPass, if_pos hr, hb, if_neg Bool.false_ne_true, if_pos hc]

/-- Everything a step can answer: a next state, the refusal of a collision, or the empty queue's fault. -/
theorem step_answers (s : State) :
    (∃ t, step s = .next t) ∨
    (step s = .refused .inputCollision ∧ s.runState = .running ∧ s.budgetSpent = false ∧ s.collides = true) ∨
    step s = .fault .inputQueueEmpty ∧ s.irqFlag = true ∧ s.inQueue = [] := by
  by_cases hr : s.runState = .running
  · cases hb : s.budgetSpent with
    | true => exact .inl ⟨_, step_of_budgetSpent hr hb⟩
    | false =>
      cases hc : s.collides with
      | true => exact .inr (.inl ⟨step_of_collision hr hb hc, hr, rfl, rfl⟩)
      | false =>
        rw [step_of_canStep ⟨hr, hb, hc⟩]
        rcases iteration_answers (schedule s) with ⟨t, ht⟩ | ⟨hstop, hflag, hq⟩
        · exact .inl ⟨_, by rw [ht, onNext_next]⟩
        · rw [schedule_inQueue] at hq
          have hnotDue : ¬ s.eventDue = true := fun hdue => eventDue_queued hdue hq
          rw [schedule_not_due hnotDue] at hflag
          exact .inr (.inr ⟨by rw [hstop]; rfl, hflag, hq⟩)
  · exact .inl ⟨s, by rw [step, driverPass, if_neg hr]⟩

/-- Settles O43, by the three answers of a step: only a collision is refused and only an empty queue faults. -/
theorem stepStopsOnlyOnInputContract : Obligations.StepStopsOnlyOnInputContract := by
  refine fun s => ⟨fun r => ⟨fun h => ?_, ?_⟩, fun r h => ?_⟩
  · rcases step_answers s with ⟨t, ht⟩ | ⟨hc, hcollision⟩ | ⟨hq, -⟩
    · cases ht.symm.trans h
    · cases hc.symm.trans h
      exact ⟨rfl, hcollision⟩
    · cases hq.symm.trans h
  · rintro ⟨rfl, hr, hb, hc⟩
    exact step_of_collision hr hb hc
  · rcases step_answers s with ⟨t, ht⟩ | ⟨hc, -⟩ | ⟨hq, hempty⟩
    · cases ht.symm.trans h
    · cases hc.symm.trans h
    · cases hq.symm.trans h
      exact ⟨rfl, hempty⟩

end Sys2Proof.Machine
end

section
/-! SUPPORT. The family 70_reset_and_hazards.md: the memory INIT_MEM gives, what a successful load checked and answers, and
the completion of every iteration. -/

namespace Sys2Proof.Machine

/-! ### The initial memory (R210 step 3) -/

theorem initialMemory_append_singleton (initMem : List (Nat × Int)) (c : Nat × Int) :
    initialMemory (initMem ++ [c]) = (initialMemory initMem).write c.1 (wrap c.2) :=
  List.foldl_concat ..

theorem initialMemory_wf (initMem : List (Nat × Int)) : (initialMemory initMem).wf := by
  induction initMem using List.reverseRecOn with
  | nil => exact ⟨List.Pairwise.nil, nofun⟩
  | append_singleton initMem c ih =>
    rw [initialMemory_append_singleton]
    exact Memory.write_wf _ ih _ _

/-- The initial memory lists only addresses that INIT_MEM gives. -/
theorem initialMemory_addresses {initMem : List (Nat × Int)} {bound : Nat} (h : ∀ c ∈ initMem, c.1 < bound) :
    ∀ d ∈ initialMemory initMem, d.1 < bound := by
  induction initMem using List.reverseRecOn with
  | nil => exact nofun
  | append_singleton initMem c ih =>
    obtain ⟨hinit, hc⟩ := List.forall_mem_append.1 h
    rw [initialMemory_append_singleton]
    exact Memory.write_addresses _ (initialMemory_wf initMem) _ _ _ (hc c (List.mem_singleton_self c)) (ih hinit)

/-- Where INIT_MEM gives no address twice, no later pair overwrites what an earlier one wrote. -/
theorem initialMemory_read {initMem : List (Nat × Int)} (hnodup : (initMem.map Prod.fst).Nodup) :
    ∀ c ∈ initMem, (initialMemory initMem).read c.1 = wrap c.2 := by
  induction initMem using List.reverseRecOn with
  | nil => exact nofun
  | append_singleton initMem d ih =>
    rw [List.map_append, List.nodup_append] at hnodup
    obtain ⟨hinit, -, hne⟩ := hnodup
    rw [initialMemory_append_singleton]
    refine List.forall_mem_append.2 ⟨fun c hc => ?_, List.forall_mem_singleton.2 ?_⟩
    · have hother : c.1 ≠ d.1 := hne _ (List.mem_map_of_mem hc) _ (List.mem_singleton_self _)
      rw [Memory.read_write_other _ _ _ _ hother, ih hinit c hc]
    · exact Memory.read_write_same _ _ _ (initialMemory_wf initMem)

/-- A value in the W-bit signed range is what its word reads as (R214). -/
theorem sint_wrap {n : Int} (h : fitsWord n = true) : sint (wrap n) = n := by
  obtain ⟨hlow, hhigh⟩ : -(2 ^ 31) ≤ n ∧ n < 2 ^ 31 := by simpa using h
  exact BitVec.toInt_ofInt_eq_self (by decide) hlow hhigh

/-! ### Reset and load (R210, R214) -/

/-- A load succeeds exactly where the image is admitted and every check of R210 passes, and answers the loaded state. -/
theorem load_eq_ok {cfg : Config} {bytes : List Byte} {initMem : List (Nat × Int)} {events : List InputEvent} {s : State} :
    State.load cfg bytes initMem events = .ok s ↔
      ∃ p, parseImage bytes = .ok p ∧ cfg.wf ∧ (∀ c ∈ initMem, c.1 < cfg.memSize ∧ fitsWord c.2 = true) ∧
        events.Pairwise (fun e f => e.scheduledTick ≤ f.scheduledTick) ∧ (∀ e ∈ events, fitsWord e.value = true) ∧
        s = State.loaded cfg p.entry p.words (initialMemory initMem) events := by
  rw [State.load]
  constructor
  · intro h
    split at h
    · cases h
    · rename_i p hp
      split_ifs at h with hcfg hinit hqueue hvalues
      cases h
      exact ⟨p, hp, hcfg, hinit, hqueue, hvalues, rfl⟩
  · rintro ⟨p, hp, hcfg, hinit, hqueue, hvalues, rfl⟩
    rw [hp]
    dsimp only
    rw [if_neg (not_not.2 hcfg), if_neg (not_not.2 hinit), if_neg (not_not.2 hqueue), if_neg (not_not.2 hvalues)]

/-- Settles O10: load's checks are the premises of the loaded state's invariant, and the values are fields of that state. -/
theorem loadLeavesResetState : Obligations.LoadLeavesResetState := by
  intro cfg bytes initMem events s hload
  obtain ⟨p, hp, hcfg, hinit, hqueue, -, rfl⟩ := load_eq_ok.1 hload
  obtain ⟨-, -, -, hlen⟩ := parseImage_eq_ok.1 hp
  have hinv : (State.loaded cfg p.entry p.words (initialMemory initMem) events).Inv :=
    State.loaded_inv hcfg (initialMemory_wf initMem) (initialMemory_addresses fun c hc => (hinit c hc).1) hlen hqueue
  refine ⟨hinv, rfl, hp, rfl, rfl, rfl, rfl, rfl, rfl, fun hnodup c hc => ?_⟩
  calc sint ((initialMemory initMem).read c.1)
      = sint (wrap c.2) := congrArg _ (initialMemory_read hnodup c hc)
    _ = c.2 := sint_wrap (hinit c hc).2

/-! ### Every iteration completes (R221) -/

/-- Settles O44: of the three answers of a step, `CanStep` excludes the collision and the invariant the empty queue. -/
theorem runningStepCompletes : Obligations.RunningStepCompletes := by
  intro s inv can
  rcases step_answers s with hnext | ⟨-, -, -, hcollides⟩ | ⟨-, hflag, hempty⟩
  · exact hnext
  · cases hcollides.symm.trans can.collision
  · exact absurd hempty (inv.pending hflag)

end Sys2Proof.Machine
end

section
/-! SUPPORT. The family other: the words of V-DEC, and the terminal states. -/

namespace Sys2Proof.Machine

/-! ### The words of V-DEC (R77, R80) -/

/-- Settles O7: each word is a literal of 16 bits, so the decoder is evaluated on it; the last one is of an undefined nibble. -/
theorem specWordsDecode : Obligations.SpecWordsDecode := by
  refine ⟨?_, ?_, ?_, ?_, ?_, ?_, ?_, ?_, ?_, ?_, ?_, decode_undefined _ (by decide)⟩ <;> decide

/-! ### The terminal states (R16, R106) -/

theorem step_of_stopped {s : State} (hr : s.runState ≠ .running) : step s = .next s := by
  rw [step, driverPass, if_neg hr]

theorem reaches_zero {s t : State} : reaches 0 s t ↔ s = t := .rfl

/-- A first step that answers is the only way on. -/
theorem reaches_succ_of_step {k : Nat} {s u t : State} (h : step s = .next u) : reaches (k + 1) s t ↔ reaches k u t := by
  constructor
  · rintro ⟨v, hv, hreach⟩
    cases h.symm.trans hv
    exact hreach
  · exact fun hreach => ⟨u, h, hreach⟩

/-- Settles O42, by induction on the number of steps: each of them answers the state it starts from. -/
theorem haltedAndFaultedAreTerminal : Obligations.HaltedAndFaultedAreTerminal := by
  intro k s t hr
  induction k with
  | zero => exact reaches_zero.trans eq_comm
  | succ k ih => exact (reaches_succ_of_step (step_of_stopped hr)).trans ih

end Sys2Proof.Machine
end
